-- ==== Sys2Proof/Word.lean ====
section
/-! DEFINITION. The word types of the block: a byte (00_scope.md rule R7), the 48-bit command word (30_encoding.md
rule R41) and the five bytes of one glyph (20_memory.md rule R25). -/

namespace Sys2Proof

/-- A byte: 8 bits, unsigned (R7). -/
abbrev Byte := BitVec 8

/-- A command word `cmd[47:0]` (R41). -/
abbrev CmdWord := BitVec 48

/-- One entry of the glyph ROM: five bytes, one per display column, left to right (R25). -/
structure Glyph where
  g0 : Byte
  g1 : Byte
  g2 : Byte
  g3 : Byte
  g4 : Byte
  deriving DecidableEq, Repr, Inhabited

/-- The five bytes of a glyph in the order they are sent (R32 (2)). -/
def Glyph.bytes (g : Glyph) : List Byte := [g.g0, g.g1, g.g2, g.g3, g.g4]

end Sys2Proof
end

