-- ==== Sys2Proof/Config.lean ====
section
/-! DEFINITION. The constants and the parameters of the block: 00_scope.md rules R5 and R6. A parameter the spec leaves
OPEN is an opaque constant without a body, so that no proof can see a value of it. -/

namespace Sys2Proof.Config

/-- `NUM_DIGITS` (R6). -/
def numDigits : Nat := 4

/-- `NUM_COLUMNS` (R6). -/
def numColumns : Nat := 5

/-- `BITS_PER_COLUMN` (R6). -/
def bitsPerColumn : Nat := 8

/-- `BRIGHTNESS_MASK` (R6). -/
def brightnessMask : Byte := 0x40

/-- `BRIGHTNESS_MAX` (R6). -/
def brightnessMax : Byte := 15

/-- `DELAY_UNIT`, in nanoseconds (R6). -/
def delayUnitNs : Nat := 100

/-- `BLANK_CHAR`, the space (R6). PRESUMED: its ASCII code (93_implementation_defined.md G1; log entry 15). -/
def blankChar : Byte := 0x20

/-- `UNKNOWN_CHAR`, the character 'X' (R6). PRESUMED: its ASCII code (G1; log entry 15). -/
def unknownChar : Byte := 0x58

/-- The backtick's code, about which rule R27 (P4) promises nothing. PRESUMED: its ASCII code (G1; log entry 15). -/
def backtick : Byte := 0x60

/-- `PRIMITIVES_EXPOSED`: `true`, the spec's own choice (R5, R43, 92_eei_decisions.md D3). -/
def primitivesExposed : Bool := true

/-- `DELAY_W`, OPEN (R5, D12; log entry 3). -/
opaque delayW : Nat

/-- The configured bits of `CFG_DELAY`, OPEN (R5, D12; log entry 2). -/
opaque delayBits : BitVec delayW

/-- The configured value of `CFG_DELAY`, a natural number of `DELAY_W` bits (R14). -/
def delay : Nat := delayBits.toNat

/-- The configured value of `CFG_BRIGHT`, OPEN, any of 0..255 (R5, R15; log entry 2). -/
opaque bright : Byte

/-- `ID_W`, OPEN (R5, D16; log entry 3). -/
opaque identW : Nat

/-- The configured bits of `CFG_ID`, OPEN and unused (R5, R16; log entry 2). -/
opaque identBits : BitVec identW

/-- The configured value of `CFG_ID` (R16). -/
def ident : Nat := identBits.toNat

/-- The font the source does not give: the bitmaps of the mapped characters other than the space (R27, D7, U6; log
entry 4). -/
opaque table : Byte → Glyph

/-- Whether the fixed table has an entry for the backtick: "with or without 0x60" (R28, P4, U7; log entry 4). -/
opaque backtickMapped : Bool

end Sys2Proof.Config
end

