-- ==== Sys2Proof/Syntax.lean ====
section
/-! DEFINITION. The abstract syntax of commands: the type `Cmd` of 30_encoding.md rule R44, one constructor per row of
spec/opcode_table.json, with the format and the class rules R41 and R42 give each. -/

namespace Sys2Proof

/-- A decoded command (R44). Every operand is a byte, and no operand value is illegal. -/
inductive Instr where
  | generateClock
  | write (byte : Byte)
  | writeArray (b0 b1 b2 b3 b4 : Byte)
  | writeChar (ch : Byte)
  | writeReg0 (v : Byte)
  | writeText (c0 c1 c2 c3 : Byte)
  | initFraming
  | init
  | updateBrightness (value : Byte)
  | updateText (c0 c1 c2 c3 : Byte)
  deriving DecidableEq, Repr

/-- The four operand shapes of R41: none, one byte, four character codes, five bytes. -/
inductive Format where
  | n
  | b
  | t
  | a
  deriving DecidableEq, Repr

/-- The format column of R42. -/
def Instr.format : Instr → Format
  | .generateClock => .n
  | .write _ => .b
  | .writeArray _ _ _ _ _ => .a
  | .writeChar _ => .b
  | .writeReg0 _ => .b
  | .writeText _ _ _ _ => .t
  | .initFraming => .n
  | .init => .n
  | .updateBrightness _ => .b
  | .updateText _ _ _ _ => .t

/-- The class column of R42: `true` for the source's "Public API surface" (R43). -/
def Instr.isPublic : Instr → Bool
  | .generateClock => false
  | .write _ => false
  | .writeArray _ _ _ _ _ => false
  | .writeChar _ => false
  | .writeReg0 _ => false
  | .writeText _ _ _ _ => false
  | .initFraming => false
  | .init => true
  | .updateBrightness _ => true
  | .updateText _ _ _ _ => true

end Sys2Proof
end

