-- ==== Sys2Proof/WellFormed.lean ====
section
/-! DEFINITION. Which commands may be presented. The operands are bytes, so no operand value is illegal (30_encoding.md
rule R44); the one check the spec has on a command is rule R43's: with `PRIMITIVES_EXPOSED = false` the seven primitives
are no commands. -/

namespace Sys2Proof

/-- `i` is a command of a block whose parameter `PRIMITIVES_EXPOSED` is `exposed` (R43). -/
def Instr.wfWith (exposed : Bool) (i : Instr) : Bool := exposed || i.isPublic

/-- `i` is a command of this block (R5, R43). -/
def Instr.wf (i : Instr) : Bool := i.wfWith Config.primitivesExposed

end Sys2Proof
end

