-- ==== Sys2Proof/Decode.lean ====
section
/-! DEFINITION. The command decoder and encoder: 30_encoding.md rules R41 (layout), R42 (opcode map), R43 (exposure of
the primitives) and R45 (reserved space). -/

namespace Sys2Proof

/-- `cmd[47:40]` (R41). -/
def opcodeField (w : CmdWord) : Byte := w.extractLsb' 40 8

/-- `p0 = cmd[39:32]` (R41). -/
def p0Field (w : CmdWord) : Byte := w.extractLsb' 32 8

/-- `p1 = cmd[31:24]` (R41). -/
def p1Field (w : CmdWord) : Byte := w.extractLsb' 24 8

/-- `p2 = cmd[23:16]` (R41). -/
def p2Field (w : CmdWord) : Byte := w.extractLsb' 16 8

/-- `p3 = cmd[15:8]` (R41). -/
def p3Field (w : CmdWord) : Byte := w.extractLsb' 8 8

/-- `p4 = cmd[7:0]` (R41). -/
def p4Field (w : CmdWord) : Byte := w.extractLsb' 0 8

/-- The must-be-zero bits of the format (R41) are all zero. -/
def paddingZero (f : Format) (w : CmdWord) : Bool :=
  match f with
  | .n => w.extractLsb' 0 40 == 0
  | .b => w.extractLsb' 0 32 == 0
  | .t => w.extractLsb' 0 8 == 0
  | .a => true

/-- Why a word selects no operation (R45, R43). -/
inductive Reserved where
  /-- An opcode of 0x00 or 0x0B to 0xFF. -/
  | opcode (op : Byte)
  /-- A defined opcode whose must-be-zero bits are not all zero. -/
  | padding (op : Byte)
  /-- A primitive's opcode in a block with `PRIMITIVES_EXPOSED = false`. -/
  | hidden (op : Byte)
  deriving DecidableEq, Repr

/-- What a word decodes to: a command, or `Reserved` (R44). -/
inductive Decoded where
  | instr (i : Instr)
  | reserved (why : Reserved)
  deriving DecidableEq, Repr

/-- The row of the opcode map (R42) that the opcode selects, with the operand bytes of its format. -/
def selectRow (w : CmdWord) : Option Instr :=
  match (opcodeField w).toNat with
  | 0x01 => some .generateClock
  | 0x02 => some (.write (p0Field w))
  | 0x03 => some (.writeArray (p0Field w) (p1Field w) (p2Field w) (p3Field w) (p4Field w))
  | 0x04 => some (.writeChar (p0Field w))
  | 0x05 => some (.writeReg0 (p0Field w))
  | 0x06 => some (.writeText (p0Field w) (p1Field w) (p2Field w) (p3Field w))
  | 0x07 => some .initFraming
  | 0x08 => some .init
  | 0x09 => some (.updateBrightness (p0Field w))
  | 0x0A => some (.updateText (p0Field w) (p1Field w) (p2Field w) (p3Field w))
  | _ => none

/-- `Decode` of R44 and R45 for a block whose `PRIMITIVES_EXPOSED` is `exposed` (R43). Total. -/
def decodeWith (exposed : Bool) (w : CmdWord) : Decoded :=
  match selectRow w with
  | none => .reserved (.opcode (opcodeField w))
  | some i =>
    if i.wfWith exposed then
      if paddingZero i.format w then .instr i else .reserved (.padding (opcodeField w))
    else .reserved (.hidden (opcodeField w))

/-- `Decode(cmd[47:0])` of this block (R44, R5). -/
def decode (w : CmdWord) : Decoded := decodeWith Config.primitivesExposed w

/-- A command word from its six bytes, the opcode in the high byte (R41). -/
def packWord (op p0 p1 p2 p3 p4 : Byte) : CmdWord := op ++ p0 ++ p1 ++ p2 ++ p3 ++ p4

/-- The opcode column of R42. -/
def Instr.opcode : Instr → Byte
  | .generateClock => 0x01
  | .write _ => 0x02
  | .writeArray _ _ _ _ _ => 0x03
  | .writeChar _ => 0x04
  | .writeReg0 _ => 0x05
  | .writeText _ _ _ _ => 0x06
  | .initFraming => 0x07
  | .init => 0x08
  | .updateBrightness _ => 0x09
  | .updateText _ _ _ _ => 0x0A

/-- The command word of a command (R41, R42): operand bytes from `p0` downward, the unused ones zero. -/
def encode (i : Instr) : CmdWord :=
  match i with
  | .generateClock => packWord i.opcode 0 0 0 0 0
  | .write b => packWord i.opcode b 0 0 0 0
  | .writeArray b0 b1 b2 b3 b4 => packWord i.opcode b0 b1 b2 b3 b4
  | .writeChar ch => packWord i.opcode ch 0 0 0 0
  | .writeReg0 v => packWord i.opcode v 0 0 0 0
  | .writeText c0 c1 c2 c3 => packWord i.opcode c0 c1 c2 c3 0
  | .initFraming => packWord i.opcode 0 0 0 0 0
  | .init => packWord i.opcode 0 0 0 0 0
  | .updateBrightness v => packWord i.opcode v 0 0 0 0
  | .updateText c0 c1 c2 c3 => packWord i.opcode c0 c1 c2 c3 0

/-- The instruction the decoder reads from a word given as a number of `nbits` bits, bit 0 the least significant bit of
`cmd[47:0]` (R41; one 48-bit word, R47). -/
def decodeTableWord (nbits w : Nat) : Option Instr :=
  if nbits ≤ 48 ∧ w < 2 ^ nbits then
    match decode (BitVec.ofNat 48 w) with
    | .instr i => some i
    | .reserved _ => none
  else none

end Sys2Proof
end

