-- ==== Sys2Proof/Machine/State.lean ====
section
/-! DEFINITION. The architectural state of 10_state.md: the four line levels (R10), the trace (R11), the sequencer (R20),
the datapath registers (R18, R19) and the configuration registers (R14 to R16), with the host's side of the command port
(R40); the state after reset (R24, R90); and the reasons a step can stop. -/

namespace Sys2Proof.Machine

/-- The level of a line: `0`, `1` or `U` (R8). -/
inductive Level where
  | low
  | high
  | unknown
  deriving DecidableEq, Repr

/-- The four lines (R8). Four distinct names: the fixed pin binding of R17. -/
inductive Line where
  | ce
  | din
  | clk
  | rs
  deriving DecidableEq, Repr

/-- An event: what the block issues to a line or to the delay unit (R8). -/
inductive Event where
  | set (l : Line)
  | clear (l : Line)
  | delay (n : Nat)
  deriving DecidableEq, Repr

/-- The levels `L[CE]`, `L[DIN]`, `L[CLK]`, `L[RS]` (R10), in the order in which 95_test_vectors.md writes them. -/
structure Lines where
  ce : Level
  din : Level
  clk : Level
  rs : Level
  deriving DecidableEq, Repr

/-- The sequencer state `SEQ` (R20): `IDLE`, or `BUSY(cmd, upc)` with `upc` the number of events of `Events(cmd)` already
issued. -/
inductive Seq where
  | idle
  | busy (cmd : Instr) (upc : Nat)
  deriving DecidableEq, Repr

/-- Which of the two step semantics of R21 a step from `IDLE` takes (log entry 7): "A model may use either". -/
inductive Grain where
  | bigStep
  | smallStep
  deriving DecidableEq, Repr

/-- The state of the machine. -/
structure State where
  /-- `L` (R10). -/
  lines : Lines
  /-- `T`, oldest event first (R11). -/
  trace : List Event
  /-- `SEQ` (R20). -/
  seq : Seq
  /-- `SR` (R18). -/
  sr : Byte
  /-- `BITCNT` (R19). -/
  bitcnt : BitVec 3
  /-- `COLCNT` (R19). -/
  colcnt : BitVec 3
  /-- `CHRCNT` (R19). -/
  chrcnt : BitVec 2
  /-- `CFG_DELAY` (R14), in units of 100 ns. -/
  cfgDelay : Nat
  /-- `CFG_BRIGHT` (R15). -/
  cfgBright : Byte
  /-- `CFG_ID` (R16). -/
  cfgId : Nat
  /-- The words the host still presents, the head at the command port (R40, D15; log entry 6). The host's, not the
  block's: the block has no queue. -/
  hostWords : List CmdWord
  /-- The step semantics in use (R21; log entry 7). -/
  grain : Grain
  deriving DecidableEq, Repr

/-- Why the machine stops with a fault. The spec has no fault (60_exceptions.md rule R75). -/
inductive Fault where
  /-- Raised by `smallStep` in a `BUSY(cmd, upc)` whose `upc` is not below the length of `Events(cmd)`: no state of R20,
  reached by no run. Safe: the model stops where the block has no state (log entry 10). -/
  | upcOutOfRange
  deriving DecidableEq, Repr

/-- Why a step has no meaning. -/
inductive Refusal where
  /-- An instruction the model does not give a meaning to yet; raised by no arm of `exec` now. Safe. -/
  | notModelled (mnemonic : String)
  /-- Raised by `step` when the word at the port decodes to `Reserved`: "a model gives it no meaning (refuses it)" (R45,
  93_implementation_defined.md U3, U4). Safe. -/
  | reservedWord (why : Reserved)
  deriving DecidableEq, Repr

/-- All four lines `U` (R24): "the block has not driven the line since reset" (R8). -/
def Lines.unknown : Lines := ⟨.unknown, .unknown, .unknown, .unknown⟩

/-- The state after reset of a block whose configuration registers were given these values (R24, R84 "configure").
DESIGN CHOICE: the working registers, which R24 leaves unspecified, are zero (log entry 1). -/
def State.resetWith (delay : Nat) (bright : Byte) (ident : Nat) : State where
  lines := Lines.unknown
  trace := []
  seq := .idle
  sr := 0
  bitcnt := 0
  colcnt := 0
  chrcnt := 0
  cfgDelay := delay
  cfgBright := bright
  cfgId := ident
  hostWords := []
  grain := .bigStep

/-- The state after reset (R24, R90): the configuration registers hold "their configured values (model arguments)". -/
def State.reset : State := State.resetWith Config.delay Config.bright Config.ident

end Sys2Proof.Machine
end

