-- ==== Sys2Proof/Machine/Ops.lean ====
section
/-! DEFINITION. The named operations on the state: the pseudocode primitives of 00_scope.md rule R9, the line levels of
10_state.md rule R10, the addressing state (R12) and the command port (30_encoding.md rule R40).

The block takes no exception and returns from none (60_exceptions.md rules R75, R78, R79), so there is no operation for
either. It has no writable memory (R9 `MemWrite`: "never used"); its one memory, the glyph ROM, is GlyphRom.lean. -/

namespace Sys2Proof.Machine

/-- `L[l]` (R10). -/
def levelOf (L : Lines) (l : Line) : Level :=
  match l with
  | .ce => L.ce
  | .din => L.din
  | .clk => L.clk
  | .rs => L.rs

/-- `L[l] <- v`; the other three lines keep their levels (R10: "writing one never changes another"). -/
def putLevel (L : Lines) (l : Line) (v : Level) : Lines :=
  match l with
  | .ce => { L with ce := v }
  | .din => { L with din := v }
  | .clk => { L with clk := v }
  | .rs => { L with rs := v }

/-- What an event does to the lines (R8): `Set` high, `Clear` low, `Delay` nothing. -/
def applyEvent (L : Lines) (e : Event) : Lines :=
  match e with
  | .set l => putLevel L l .high
  | .clear l => putLevel L l .low
  | .delay _ => L

/-- The levels after a list of events (R21, R31). -/
def applyEvents (L : Lines) (es : List Event) : Lines := es.foldl applyEvent L

/-- The block issues one event: it is appended to `T`, also when it changes no level (R11), and the lines follow it. -/
def issue (e : Event) (s : State) : State :=
  { s with lines := applyEvent s.lines e, trace := s.trace ++ [e] }

/-- `SR <- v` (R18). -/
def putSr (v : Byte) (s : State) : State := { s with sr := v }

/-- `BITCNT <- v` (R19). -/
def putBitcnt (v : BitVec 3) (s : State) : State := { s with bitcnt := v }

/-- `COLCNT <- v` (R19). -/
def putColcnt (v : BitVec 3) (s : State) : State := { s with colcnt := v }

/-- `CHRCNT <- v` (R19). -/
def putChrcnt (v : BitVec 2) (s : State) : State := { s with chrcnt := v }

/-- `SEQ <- v` (R20). -/
def putSeq (v : Seq) (s : State) : State := { s with seq := v }

/-- `set(l)` of R9. -/
def setLine (l : Line) (s : State) : State := issue (.set l) s

/-- `clear(l)` of R9. -/
def clearLine (l : Line) (s : State) : State := issue (.clear l) s

/-- `drive(l, b)` of R9. -/
def driveLine (l : Line) (b : Bool) (s : State) : State := if b then setLine l s else clearLine l s

/-- `delay()` of R9: every delay has the one count `CFG_DELAY` (R14). -/
def issueDelay (s : State) : State := issue (.delay s.cfgDelay) s

/-- One line of pseudocode (R9), with the loops unrolled and the calls in place. -/
inductive Micro where
  /-- `set(l)`. -/
  | set (l : Line)
  /-- `clear(l)`. -/
  | clear (l : Line)
  /-- `delay()`. -/
  | delay
  /-- `drive(DIN, SR[7])` (R52). -/
  | driveDin
  /-- `SR <- b` (R52). -/
  | loadSr (b : Byte)
  /-- `SR <- (SR << 1)[7:0]` (R52, R54). -/
  | shiftSr
  /-- The loop variable of `WRITE` takes a value (R19, R52). -/
  | bitcnt (v : BitVec 3)
  /-- The loop variable of `WRITE_ARRAY` takes a value (R19, R55). -/
  | colcnt (v : BitVec 3)
  /-- The loop variable of `WRITE_TEXT` takes a value (R19, R62). -/
  | chrcnt (v : BitVec 2)
  deriving DecidableEq, Repr

/-- The line of pseudocode issues an event. -/
def issues (m : Micro) : Bool :=
  match m with
  | .set _ => true
  | .clear _ => true
  | .delay => true
  | .driveDin => true
  | .loadSr _ => false
  | .shiftSr => false
  | .bitcnt _ => false
  | .colcnt _ => false
  | .chrcnt _ => false

/-- The effect of one line of pseudocode (R9). -/
def runMicro (m : Micro) (s : State) : State :=
  match m with
  | .set l => setLine l s
  | .clear l => clearLine l s
  | .delay => issueDelay s
  | .driveDin => driveLine .din s.sr.msb s
  | .loadSr b => putSr b s
  | .shiftSr => putSr (s.sr <<< 1) s
  | .bitcnt v => putBitcnt v s
  | .colcnt v => putColcnt v s
  | .chrcnt v => putChrcnt v s

/-- Runs pseudocode line by line from a state, keeping the events of each line apart from the trace: the events issued, in
order, and the state reached (its trace is of no use). -/
def collect (p : List Micro) (s : State) : List Event × State :=
  match p with
  | [] => ([], s)
  | m :: ms =>
    ((runMicro m { s with trace := [] }).trace ++ (collect ms (runMicro m { s with trace := [] })).1,
      (collect ms (runMicro m { s with trace := [] })).2)

/-- Runs pseudocode to its end, in place (R9 `call`; R21 big step): the effect of its lines one after another
(`runProg_cons` in Laws/Ops.lean), with the events appended to the trace at once. -/
def runProg (p : List Micro) (s : State) : State := { (collect p s).2 with trace := s.trace ++ (collect p s).1 }

/-- The two addressing states of the bus (R12, R29). -/
inductive Addressing where
  | normal
  | registerSelect
  deriving DecidableEq, Repr

/-- The addressing state, read off `L[RS]`; none while it is `U` (R12). -/
def addressing (L : Lines) : Option Addressing :=
  match L.rs with
  | .low => some .normal
  | .high => some .registerSelect
  | .unknown => none

/-- What is at the command port: the word presented, if any, and the state with it taken (R40). -/
def takeCommand (s : State) : Option (CmdWord × State) :=
  match s.hostWords with
  | [] => none
  | w :: ws => some (w, { s with hostWords := ws })

end Sys2Proof.Machine
end

