-- ==== Sys2Proof/Machine/ClockAndShift.lean ====
section
/-! DEFINITION. The clock pulse generator and the bit shifter: 40_clock_and_shift.md rules R50 and R52. -/

namespace Sys2Proof.Machine

/-- The pseudocode of `GENERATE_CLOCK` (R50). -/
def generateClockProg : List Micro := [.clear .clk, .delay, .set .clk, .delay, .clear .clk]

/-- The values of `BITCNT`: 7 downto 0 (R52). -/
def bitLoop : List (BitVec 3) := [7, 6, 5, 4, 3, 2, 1, 0]

/-- One round of the loop of `WRITE` (R52). -/
def writeBitProg (i : BitVec 3) : List Micro := [.bitcnt i, .driveDin] ++ generateClockProg ++ [.shiftSr]

/-- The pseudocode of `WRITE` (R52). -/
def writeProg (b : Byte) : List Micro := [.loadSr b] ++ bitLoop.flatMap writeBitProg ++ [.clear .din]

/-- `GENERATE_CLOCK` (R50). -/
def execGenerateClock (s : State) : Host.Outcome State Fault Refusal := .next (runProg generateClockProg s)

/-- `WRITE byte` (R52). -/
def execWrite (b : Byte) (s : State) : Host.Outcome State Fault Refusal := .next (runProg (writeProg b) s)

end Sys2Proof.Machine
end

