-- ==== Sys2Proof/Machine/GlyphRom.lean ====
section
/-! DEFINITION. The glyph ROM: 20_memory.md rules R25 to R28. Its contents are known for the space only (P1); the other
bitmaps are the opaque `Config.table` (log entry 4). -/

namespace Sys2Proof.Machine

/-- The eleven symbols of R28: `=` `.` `:` `>` `<` `/` `!` `|` `-` `+` `#`. -/
def mappedSymbols : List Byte := [0x3D, 0x2E, 0x3A, 0x3E, 0x3C, 0x2F, 0x21, 0x7C, 0x2D, 0x2B, 0x23]

/-- `ch` is in `MAPPED48` (R28): A to Z, 0 to 9, space, and the eleven symbols. -/
def isMapped48 (ch : Byte) : Bool :=
  (decide (0x41 ≤ ch.toNat) && decide (ch.toNat ≤ 0x5A)) ||
  (decide (0x30 ≤ ch.toNat) && decide (ch.toNat ≤ 0x39)) ||
  ch == Config.blankChar || mappedSymbols.contains ch

/-- `ch` is in `MAPPED`: `MAPPED48`, with or without 0x60 (R28). -/
def isMapped (ch : Byte) : Bool := isMapped48 ch || (ch == Config.backtick && Config.backtickMapped)

/-- `TABLE` (R26): five zeros for the space (P1 of R27), unknown otherwise. -/
def tableEntry (ch : Byte) : Glyph := if ch = Config.blankChar then ⟨0, 0, 0, 0, 0⟩ else Config.table ch

/-- `GLYPH(ch)` (R26): the table's entry, or that of 'X' for a character without one. -/
def glyph (ch : Byte) : Glyph := if isMapped ch then tableEntry ch else tableEntry Config.unknownChar

/-- `MemRead(GLYPHROM, ch, 5)` (R9, R26): always succeeds, has no side effect (R34). -/
def memReadGlyph (ch : Byte) : Glyph := glyph ch

end Sys2Proof.Machine
end

