-- ==== Sys2Proof/Machine/ColumnAndGlyph.lean ====
section
/-! DEFINITION. The column composer and the glyph table: 41_column_and_glyph.md rules R55 and R57. -/

namespace Sys2Proof.Machine

/-- The values of `COLCNT` beside the bytes of a glyph: 0 .. 4 (R55). -/
def colLoop (g : Glyph) : List (BitVec 3 × Byte) := [(0, g.g0), (1, g.g1), (2, g.g2), (3, g.g3), (4, g.g4)]

/-- The pseudocode of `WRITE_ARRAY` (R55). -/
def writeArrayProg (g : Glyph) : List Micro := (colLoop g).flatMap fun c => .colcnt c.1 :: writeProg c.2

/-- The pseudocode of `WRITE_CHAR` (R57). -/
def writeCharProg (ch : Byte) : List Micro := writeArrayProg (memReadGlyph ch)

/-- `WRITE_ARRAY b0, b1, b2, b3, b4` (R55). -/
def execWriteArray (b0 b1 b2 b3 b4 : Byte) (s : State) : Host.Outcome State Fault Refusal :=
  .next (runProg (writeArrayProg ⟨b0, b1, b2, b3, b4⟩) s)

/-- `WRITE_CHAR ch` (R57). -/
def execWriteChar (ch : Byte) (s : State) : Host.Outcome State Fault Refusal := .next (runProg (writeCharProg ch) s)

end Sys2Proof.Machine
end

