-- ==== Sys2Proof/Machine/Framing.lean ====
section
/-! DEFINITION. The register-0 writer and the text writer: 42_register_and_text_framing.md rules R60 and R62. -/

namespace Sys2Proof.Machine

/-- The pseudocode of `WRITE_REG0` (R60). -/
def writeReg0Prog (v : Byte) : List Micro :=
  [.set .rs, .delay, .clear .ce, .delay] ++ writeProg v ++ [.set .ce, .delay, .clear .clk, .delay, .clear .rs]

/-- The values of `CHRCNT` beside the four character codes: 0 .. 3 (R62). -/
def chrLoop (c0 c1 c2 c3 : Byte) : List (BitVec 2 × Byte) := [(0, c0), (1, c1), (2, c2), (3, c3)]

/-- The pseudocode of `WRITE_TEXT` (R62). -/
def writeTextProg (c0 c1 c2 c3 : Byte) : List Micro :=
  [.clear .rs, .delay, .clear .ce, .delay] ++
  ((chrLoop c0 c1 c2 c3).flatMap fun c => .chrcnt c.1 :: writeCharProg c.2) ++
  [.set .ce, .delay, .clear .clk, .delay, .clear .din]

/-- `WRITE_REG0 v` (R60): `v` is sent as it stands. -/
def execWriteReg0 (v : Byte) (s : State) : Host.Outcome State Fault Refusal := .next (runProg (writeReg0Prog v) s)

/-- `WRITE_TEXT c0, c1, c2, c3` (R62). -/
def execWriteText (c0 c1 c2 c3 : Byte) (s : State) : Host.Outcome State Fault Refusal :=
  .next (runProg (writeTextProg c0 c1 c2 c3) s)

end Sys2Proof.Machine
end

