-- ==== Sys2Proof/Machine/Operands.lean ====
section
/-! DEFINITION. The arithmetic on operands: the clamp and the brightness byte of 43_session_controller.md rules R65 and
R71 and 42_register_and_text_framing.md rule R61. The operand forms themselves are bytes used as they stand
(30_encoding.md rule R41) and are read off the command word by the decoder. -/

namespace Sys2Proof.Machine

/-- `clamp(v) = min(v, 15)`, unsigned and saturating (R65). -/
def clamp (v : Byte) : Byte := if v.toNat ≤ Config.brightnessMax.toNat then v else Config.brightnessMax

/-- `BRIGHTNESS_MASK + level` for the clamped level (R61, R71, 90_conflicts.md C8). -/
def brightnessByte (v : Byte) : Byte := Config.brightnessMask + clamp v

end Sys2Proof.Machine
end

