-- ==== Sys2Proof/Machine/Session.lean ====
section
/-! DEFINITION. The session controller: 43_session_controller.md rules R66, R67, R69 and R70. -/

namespace Sys2Proof.Machine

/-- The pseudocode of `INIT_FRAMING` (R66): no delays (92_eei_decisions.md D10; log entry 14). -/
def initFramingProg : List Micro := [.set .ce, .clear .clk, .clear .din]

/-- The pseudocode of `INIT` (R67) for a value of `CFG_BRIGHT`. -/
def initProg (bright : Byte) : List Micro :=
  initFramingProg ++
  writeTextProg Config.blankChar Config.blankChar Config.blankChar Config.blankChar ++
  writeReg0Prog (brightnessByte bright)

/-- The pseudocode of `UPDATE_BRIGHTNESS` (R69): nothing is written to `CFG_BRIGHT` (D9; log entry 14). -/
def updateBrightnessProg (value : Byte) : List Micro := writeReg0Prog (brightnessByte value)

/-- The pseudocode of `UPDATE_TEXT` (R70). -/
def updateTextProg (c0 c1 c2 c3 : Byte) : List Micro := writeTextProg c0 c1 c2 c3

/-- `INIT_FRAMING` (R66). -/
def execInitFraming (s : State) : Host.Outcome State Fault Refusal := .next (runProg initFramingProg s)

/-- `INIT` (R67): reads `CFG_BRIGHT`. -/
def execInit (s : State) : Host.Outcome State Fault Refusal := .next (runProg (initProg s.cfgBright) s)

/-- `UPDATE_BRIGHTNESS value` (R69). -/
def execUpdateBrightness (value : Byte) (s : State) : Host.Outcome State Fault Refusal :=
  .next (runProg (updateBrightnessProg value) s)

/-- `UPDATE_TEXT c0, c1, c2, c3` (R70). -/
def execUpdateText (c0 c1 c2 c3 : Byte) (s : State) : Host.Outcome State Fault Refusal :=
  .next (runProg (updateTextProg c0 c1 c2 c3) s)

end Sys2Proof.Machine
end

