-- ==== Sys2Proof/Machine/Dispatch.lean ====
section
/-! DEFINITION. One arm per constructor of `Instr`, each a direct call of that instruction's meaning. -/

namespace Sys2Proof.Machine

def exec (i : Instr) (s : State) : Host.Outcome State Fault Refusal :=
  match i with
  | .generateClock => Sys2Proof.Machine.execGenerateClock s
  | .write b => Sys2Proof.Machine.execWrite b s
  | .writeArray b0 b1 b2 b3 b4 => Sys2Proof.Machine.execWriteArray b0 b1 b2 b3 b4 s
  | .writeChar ch => Sys2Proof.Machine.execWriteChar ch s
  | .writeReg0 v => Sys2Proof.Machine.execWriteReg0 v s
  | .writeText c0 c1 c2 c3 => Sys2Proof.Machine.execWriteText c0 c1 c2 c3 s
  | .initFraming => Sys2Proof.Machine.execInitFraming s
  | .init => Sys2Proof.Machine.execInit s
  | .updateBrightness v => Sys2Proof.Machine.execUpdateBrightness v s
  | .updateText c0 c1 c2 c3 => Sys2Proof.Machine.execUpdateText c0 c1 c2 c3 s

end Sys2Proof.Machine
end

