-- ==== Sys2Proof/Machine/Events.lean ====
section
/-! DEFINITION. `Events(c)` (30_encoding.md rule R44): the finite event list of a command for a configuration, written
from the "Events:" line of each operation's rule (R50, R52, R55, R57, R60, R62, R66, R67, R69, R70), without the working
registers. -/

namespace Sys2Proof.Machine

/-- The five events of a pulse (R50). -/
def pulseEvents (d : Nat) : List Event := [.clear .clk, .delay d, .set .clk, .delay d, .clear .clk]

/-- `X_i` of R52: `Set(DIN)` for a 1, `Clear(DIN)` for a 0. -/
def dinEvent (b : Bool) : Event := if b then .set .din else .clear .din

/-- The events of `WRITE` (R52): for each bit from 7 down to 0 its `DIN` write and a pulse, then `Clear(DIN)`. -/
def writeEvents (d : Nat) (b : Byte) : List Event :=
  (([7, 6, 5, 4, 3, 2, 1, 0] : List Nat).flatMap fun i => dinEvent (b.getLsbD i) :: pulseEvents d) ++ [.clear .din]

/-- The events of `WRITE_ARRAY` (R55). -/
def writeArrayEvents (d : Nat) (g : Glyph) : List Event := g.bytes.flatMap (writeEvents d)

/-- The events of `WRITE_CHAR` (R57). -/
def writeCharEvents (d : Nat) (ch : Byte) : List Event := writeArrayEvents d (glyph ch)

/-- The events of `WRITE_REG0` (R60). -/
def writeReg0Events (d : Nat) (v : Byte) : List Event :=
  [.set .rs, .delay d, .clear .ce, .delay d] ++ writeEvents d v ++
  [.set .ce, .delay d, .clear .clk, .delay d, .clear .rs]

/-- The events of `WRITE_TEXT` (R62). -/
def writeTextEvents (d : Nat) (c0 c1 c2 c3 : Byte) : List Event :=
  [.clear .rs, .delay d, .clear .ce, .delay d] ++
  (writeCharEvents d c0 ++ writeCharEvents d c1 ++ writeCharEvents d c2 ++ writeCharEvents d c3) ++
  [.set .ce, .delay d, .clear .clk, .delay d, .clear .din]

/-- The events of `INIT_FRAMING` (R66). -/
def initFramingEvents : List Event := [.set .ce, .clear .clk, .clear .din]

/-- The events of `INIT` (R67). -/
def initEvents (d : Nat) (bright : Byte) : List Event :=
  initFramingEvents ++
  writeTextEvents d Config.blankChar Config.blankChar Config.blankChar Config.blankChar ++
  writeReg0Events d (brightnessByte bright)

/-- `Events(c)` for `CFG_DELAY = d` and `CFG_BRIGHT = bright` (R44). -/
def events (d : Nat) (bright : Byte) (i : Instr) : List Event :=
  match i with
  | .generateClock => pulseEvents d
  | .write b => writeEvents d b
  | .writeArray b0 b1 b2 b3 b4 => writeArrayEvents d ⟨b0, b1, b2, b3, b4⟩
  | .writeChar ch => writeCharEvents d ch
  | .writeReg0 v => writeReg0Events d v
  | .writeText c0 c1 c2 c3 => writeTextEvents d c0 c1 c2 c3
  | .initFraming => initFramingEvents
  | .init => initEvents d bright
  | .updateBrightness v => writeReg0Events d (brightnessByte v)
  | .updateText c0 c1 c2 c3 => writeTextEvents d c0 c1 c2 c3

/-- `Events(c)` for the configuration registers of a state (R44). -/
def eventsIn (s : State) (i : Instr) : List Event := events s.cfgDelay s.cfgBright i

end Sys2Proof.Machine
end

