-- ==== Sys2Proof/Machine/Sequencer.lean ====
section
/-! DEFINITION. The small-step semantics of 10_state.md rules R20 and R21: accepting a command, and issuing one event of
a command in progress; and which command a step ends. -/

namespace Sys2Proof.Machine

/-- The pseudocode of a command for a value of `CFG_BRIGHT` (R21). -/
def program (bright : Byte) (i : Instr) : List Micro :=
  match i with
  | .generateClock => generateClockProg
  | .write b => writeProg b
  | .writeArray b0 b1 b2 b3 b4 => writeArrayProg ⟨b0, b1, b2, b3, b4⟩
  | .writeChar ch => writeCharProg ch
  | .writeReg0 v => writeReg0Prog v
  | .writeText c0 c1 c2 c3 => writeTextProg c0 c1 c2 c3
  | .initFraming => initFramingProg
  | .init => initProg bright
  | .updateBrightness v => updateBrightnessProg v
  | .updateText c0 c1 c2 c3 => updateTextProg c0 c1 c2 c3

/-- The lines of pseudocode that stand between event `k - 1` and event `k` of a program: they write the working registers
only. DEDUCED: a step does them just before its event (log entry 8). -/
def workBefore (p : List Micro) (k : Nat) : List Micro :=
  match p, k with
  | [], _ => []
  | m :: ms, 0 => if issues m then [] else m :: workBefore ms 0
  | m :: ms, k + 1 => if issues m then workBefore ms k else workBefore ms (k + 1)

/-- Accepting a command: `SEQ <- BUSY(cmd, 0)` (R21). -/
def acceptCommand (i : Instr) (s : State) : State := putSeq (.busy i 0) s

/-- `SEQ` after event `k` of `n` events of a command: `BUSY(cmd, k+1)`, or `IDLE` when `k+1 = n` (R21). -/
def seqAfter (i : Instr) (k n : Nat) : Seq := if k + 1 = n then .idle else .busy i (k + 1)

/-- One small step in `BUSY(cmd, k)`: it applies event `Events(cmd)[k]` and moves `SEQ` on (R21). -/
def smallStep (i : Instr) (k : Nat) (s : State) : Host.Outcome State Fault Refusal :=
  match (eventsIn s i)[k]? with
  | none => .fault .upcOutOfRange
  | some e =>
    .next (putSeq (seqAfter i k (eventsIn s i).length)
      (issue e (runProg (workBefore (program s.cfgBright i) k) s)))

/-- The command whose last effect the step from `s` is, if there is one: in the big-step semantics the command at the port,
in the small-step semantics the command whose last event is next (R21). -/
def commandEnded (s : State) : Option Instr :=
  match s.seq with
  | .busy i k => if k + 1 = (eventsIn s i).length then some i else none
  | .idle =>
    match takeCommand s, s.grain with
    | some (w, _), .bigStep =>
      match decode w with
      | .instr i => some i
      | .reserved _ => none
    | _, _ => none

end Sys2Proof.Machine
end

