-- ==== Sys2Proof/Machine/Step.lean ====
section
/-! DEFINITION. One step of the machine: 10_state.md rules R20 and R21, 30_encoding.md rules R40 and R45,
70_reset_and_hazards.md rule R91. -/

namespace Sys2Proof.Machine

/-- One step. In `BUSY` one event of the command in progress is issued and no command is accepted (R21). In `IDLE` without
a word at the port the block does nothing (R91; log entry 11). In `IDLE` with a word at the port the word is decoded: a `Reserved` word
is refused (R45); a command is run to its end (R21 big step) or accepted (R21 small step), as `grain` says. -/
def step (s : State) : Host.Outcome State Fault Refusal :=
  match s.seq with
  | .busy i k => smallStep i k s
  | .idle =>
    match takeCommand s with
    | none => .next s
    | some (w, t) =>
      match decode w with
      | .reserved why => .refused (.reservedWord why)
      | .instr i =>
        match s.grain with
        | .bigStep => exec i t
        | .smallStep => .next (acceptCommand i t)

/-- `s` with the word `w` of `nbits` bits at the command port, in place of the word there, the block idle and stepping by
whole commands: the next step runs exactly that word (log entry 5). -/
def State.withFetchWord (s : State) (nbits w : Nat) : State :=
  { s with hostWords := BitVec.ofNat 48 (w % 2 ^ nbits) :: s.hostWords.tail, seq := .idle, grain := .bigStep }

end Sys2Proof.Machine
end

