-- ==== Sys2Proof/Machine/Flags.lean ====
section
/-! DEFINITION. The block has no flags and no condition codes (10_state.md rule R22). The only status a host can use is
whether the block is busy, "a handshake, not a flag an operation sets or tests". -/

namespace Sys2Proof.Machine

/-- `SEQ /= IDLE` (R22). -/
def isBusy (s : State) : Bool :=
  match s.seq with
  | .idle => false
  | .busy _ _ => true

end Sys2Proof.Machine
end

