-- ==== Sys2Proof/Machine/Receiver.lean ====
section
/-! DEFINITION. What the lines carried, the vocabulary for claims about traces: `Sampled` and `Frames` of 20_memory.md rule
R31, the level a list of events leaves on a line (10_state.md rule R21), and the counts and spacings of
70_reset_and_hazards.md rules R98, R101 and R102. None of it is a model of the display device (R30). -/

namespace Sys2Proof.Machine

/-- A sample: the levels of `CE`, `RS` and `DIN` at a rising edge of `CLK` (R31). -/
structure Sample where
  ce : Level
  rs : Level
  din : Level
  deriving DecidableEq, Repr

/-- The event is a rising edge: a `Set(CLK)` that meets `CLK` at level 0 (R31). -/
def isRise (L : Lines) (e : Event) : Bool := e == .set .clk && L.clk == .low

/-- `Sampled(T, L0)` (R31). -/
def sampled (es : List Event) (L : Lines) : List Sample :=
  match es with
  | [] => []
  | e :: rest =>
    if isRise L e then ⟨L.ce, L.rs, L.din⟩ :: sampled rest (applyEvent L e) else sampled rest (applyEvent L e)

/-- A frame that has opened and not closed: the levels of `RS` at its events so far, and its payload so far. -/
structure OpenFrame where
  rs : List Level
  payload : List Level
  deriving DecidableEq, Repr

/-- A frame (R31): its address, none where undefined, and its payload. -/
structure Frame where
  address : Option Addressing
  payload : List Level
  deriving DecidableEq, Repr

/-- The address of a frame from the levels of `RS` at its events (R31): defined when they are all the same and none is
`U`. -/
def frameAddress (rs : List Level) : Option Addressing :=
  if rs.all (· == .low) then some .normal
  else if rs.all (· == .high) then some .registerSelect
  else none

/-- An event inside an open frame (R31). -/
def extendFrame (f : OpenFrame) (L : Lines) (e : Event) : OpenFrame :=
  { rs := (applyEvent L e).rs :: f.rs, payload := if isRise L e then f.payload ++ [L.din] else f.payload }

/-- The walk of `Frames` (R31): a frame opens at a `Clear(CE)` that meets `CE` not at 0 and closes at the next `Set(CE)`.
DEDUCED: a frame that the trace does not close is no frame of it (log entry 16). -/
def framesFrom (es : List Event) (L : Lines) (cur : Option OpenFrame) : List Frame :=
  match es, cur with
  | [], _ => []
  | e :: rest, none =>
    if e == .clear .ce && L.ce != .low then framesFrom rest (applyEvent L e) (some ⟨[L.rs], []⟩)
    else framesFrom rest (applyEvent L e) none
  | e :: rest, some f =>
    if e == .set .ce then
      ⟨frameAddress (extendFrame f L e).rs, (extendFrame f L e).payload⟩ :: framesFrom rest (applyEvent L e) none
    else framesFrom rest (applyEvent L e) (some (extendFrame f L e))

/-- `Frames(T, L0)` (R31). -/
def frames (es : List Event) (L : Lines) : List Frame := framesFrom es L none

/-- The level of a bit on a line (R8). -/
def bitLevel (b : Bool) : Level := if b then .high else .low

/-- The bits of a byte as levels, bit 7 first (R32 (1)). -/
def byteLevels (b : Byte) : List Level :=
  ([7, 6, 5, 4, 3, 2, 1, 0] : List Nat).map fun i => bitLevel (b.getLsbD i)

/-- The bits of a glyph as levels, in the order R32 sends them. -/
def glyphLevels (g : Glyph) : List Level := g.bytes.flatMap byteLevels

/-- The level of the last `Set(l)` or `Clear(l)` in a list of events, none when there is none (R21). -/
def lastLevel (l : Line) (es : List Event) : Option Level :=
  match es with
  | [] => none
  | e :: rest =>
    match lastLevel l rest with
    | some v => some v
    | none =>
      match e with
      | .set m => if m = l then some .high else none
      | .clear m => if m = l then some .low else none
      | .delay _ => none

/-- The event is a `Delay`. -/
def isDelay (e : Event) : Bool :=
  match e with
  | .set _ => false
  | .clear _ => false
  | .delay _ => true

/-- The event writes line `l`. -/
def writesLine (l : Line) (e : Event) : Bool := e == .set l || e == .clear l

/-- How many `Delay` events a trace has (R101). -/
def delayCount (es : List Event) : Nat := es.countP isDelay

/-- The least time a trace takes, in nanoseconds: each `Delay(n)` blocks for at least `n` units (R82, R102). -/
def leastNs (es : List Event) : Nat :=
  match es with
  | [] => 0
  | .delay n :: rest => n * Config.delayUnitNs + leastNs rest
  | .set _ :: rest => leastNs rest
  | .clear _ :: rest => leastNs rest

/-- Between an `a` event and every `b` event after it, up to the next `a` event, at least `n` `Delay` events lie; `cur`
counts the delays since the last `a` event, none before the first. -/
def gapsFrom (n : Nat) (a b : Event → Bool) (cur : Option Nat) (es : List Event) : Bool :=
  match es with
  | [] => true
  | e :: rest =>
    (!b e || cur.all (fun c => decide (n ≤ c))) &&
    gapsFrom n a b (if a e then some 0 else if isDelay e then cur.map (· + 1) else cur) rest

/-- From each `a` event to each `b` event that follows before the next `a` event, at least `n` `Delay` events lie: a lower
bound of R98 in units of `CFG_DELAY` x 100 ns. -/
def gapsAtLeast (n : Nat) (a b : Event → Bool) (es : List Event) : Bool := gapsFrom n a b none es

end Sys2Proof.Machine
end

