-- ==== Sys2Proof/Machine/TextSyntax.lean ====
section
/-! DEFINITION. The textual syntax of commands: 30_encoding.md rule R48. It is the host's side of the command port; no step
of the machine reads text. What R48 leaves open about spacing, case of digits and ASCII is log entry 17. -/

namespace Sys2Proof.Machine

/-- What one line of text is (R48). -/
inductive TextLine where
  /-- A blank line or a comment. -/
  | blank
  /-- One command. -/
  | command (i : Instr)
  /-- Not of the form R48 gives. -/
  | malformed
  deriving DecidableEq, Repr

/-- The mnemonics of R42. -/
inductive Mnemonic where
  | generateClock
  | write
  | writeArray
  | writeChar
  | writeReg0
  | writeText
  | initFraming
  | init
  | updateBrightness
  | updateText
  deriving DecidableEq, Repr

/-- The letters of a mnemonic, in capitals (R42, R48). -/
def mnemonicText (m : Mnemonic) : List Char :=
  match m with
  | .generateClock => ['G', 'E', 'N', 'E', 'R', 'A', 'T', 'E', '_', 'C', 'L', 'O', 'C', 'K']
  | .write => ['W', 'R', 'I', 'T', 'E']
  | .writeArray => ['W', 'R', 'I', 'T', 'E', '_', 'A', 'R', 'R', 'A', 'Y']
  | .writeChar => ['W', 'R', 'I', 'T', 'E', '_', 'C', 'H', 'A', 'R']
  | .writeReg0 => ['W', 'R', 'I', 'T', 'E', '_', 'R', 'E', 'G', '0']
  | .writeText => ['W', 'R', 'I', 'T', 'E', '_', 'T', 'E', 'X', 'T']
  | .initFraming => ['I', 'N', 'I', 'T', '_', 'F', 'R', 'A', 'M', 'I', 'N', 'G']
  | .init => ['I', 'N', 'I', 'T']
  | .updateBrightness => ['U', 'P', 'D', 'A', 'T', 'E', '_', 'B', 'R', 'I', 'G', 'H', 'T', 'N', 'E', 'S', 'S']
  | .updateText => ['U', 'P', 'D', 'A', 'T', 'E', '_', 'T', 'E', 'X', 'T']

/-- Every mnemonic. -/
def allMnemonics : List Mnemonic :=
  [.generateClock, .write, .writeArray, .writeChar, .writeReg0, .writeText, .initFraming, .init, .updateBrightness,
    .updateText]

/-- How many operands a mnemonic takes, and whether they are characters (R42, R48). -/
def operandShape (m : Mnemonic) : Nat × Bool :=
  match m with
  | .generateClock => (0, false)
  | .write => (1, false)
  | .writeArray => (5, false)
  | .writeChar => (1, true)
  | .writeReg0 => (1, false)
  | .writeText => (4, true)
  | .initFraming => (0, false)
  | .init => (0, false)
  | .updateBrightness => (1, false)
  | .updateText => (4, true)

/-- The operands of the mnemonic may be one string of four characters: format `T` (R48). -/
def takesString (m : Mnemonic) : Bool :=
  match m with
  | .generateClock => false
  | .write => false
  | .writeArray => false
  | .writeChar => false
  | .writeReg0 => false
  | .writeText => true
  | .initFraming => false
  | .init => false
  | .updateBrightness => false
  | .updateText => true

/-- The command of a mnemonic and its operands, none for a wrong number of operands. -/
def assemble (m : Mnemonic) (ops : List Byte) : Option Instr :=
  match m, ops with
  | .generateClock, [] => some .generateClock
  | .write, [b] => some (.write b)
  | .writeArray, [b0, b1, b2, b3, b4] => some (.writeArray b0 b1 b2 b3 b4)
  | .writeChar, [ch] => some (.writeChar ch)
  | .writeReg0, [v] => some (.writeReg0 v)
  | .writeText, [c0, c1, c2, c3] => some (.writeText c0 c1 c2 c3)
  | .initFraming, [] => some .initFraming
  | .init, [] => some .init
  | .updateBrightness, [v] => some (.updateBrightness v)
  | .updateText, [c0, c1, c2, c3] => some (.updateText c0 c1 c2 c3)
  | _, _ => none

/-- A command taken apart into its mnemonic and its operands. -/
def disassemble (i : Instr) : Mnemonic × List Byte :=
  match i with
  | .generateClock => (.generateClock, [])
  | .write b => (.write, [b])
  | .writeArray b0 b1 b2 b3 b4 => (.writeArray, [b0, b1, b2, b3, b4])
  | .writeChar ch => (.writeChar, [ch])
  | .writeReg0 v => (.writeReg0, [v])
  | .writeText c0 c1 c2 c3 => (.writeText, [c0, c1, c2, c3])
  | .initFraming => (.initFraming, [])
  | .init => (.init, [])
  | .updateBrightness v => (.updateBrightness, [v])
  | .updateText c0 c1 c2 c3 => (.updateText, [c0, c1, c2, c3])

/-- The double quote. -/
def dquote : Char := Char.ofNat 34

/-- The single quote. -/
def squote : Char := Char.ofNat 39

/-- DESIGN CHOICE: space, tab and carriage return separate words (log entry 17). -/
def isBlankChar (c : Char) : Bool := c.toNat == 32 || c.toNat == 9 || c.toNat == 13

/-- The rest of a line after its leading blanks. -/
def skipBlanks (cs : List Char) : List Char :=
  match cs with
  | [] => []
  | c :: rest => if isBlankChar c then skipBlanks rest else c :: rest

/-- Nothing but blanks and a comment is left of the line (R48: "A `;` starts a comment"). -/
def lineEnds (cs : List Char) : Bool :=
  match skipBlanks cs with
  | [] => true
  | c :: _ => c == ';'

/-- The value of a decimal digit. -/
def decDigit (c : Char) : Option Nat :=
  if 48 ≤ c.toNat ∧ c.toNat ≤ 57 then some (c.toNat - 48) else none

/-- The value of a hexadecimal digit, of either case (log entry 17). -/
def hexDigit (c : Char) : Option Nat :=
  if 48 ≤ c.toNat ∧ c.toNat ≤ 57 then some (c.toNat - 48)
  else if 65 ≤ c.toNat ∧ c.toNat ≤ 70 then some (c.toNat - 55)
  else if 97 ≤ c.toNat ∧ c.toNat ≤ 102 then some (c.toNat - 87)
  else none

/-- The code of an ASCII character (R7), none outside ASCII. -/
def charCode (c : Char) : Option Byte := if c.toNat < 128 then some (BitVec.ofNat 8 c.toNat) else none

/-- Reads decimal digits on from the value read so far. -/
def decimalFrom (acc : Nat) (cs : List Char) : Nat × List Char :=
  match cs with
  | [] => (acc, [])
  | c :: rest =>
    match decDigit c with
    | some v => decimalFrom (acc * 10 + v) rest
    | none => (acc, c :: rest)

/-- A decimal number 0..255 (R48). -/
def readDecimal (cs : List Char) : Option (Byte × List Char) :=
  match cs with
  | [] => none
  | c :: rest =>
    match decDigit c with
    | none => none
    | some v =>
      if (decimalFrom v rest).1 ≤ 255 then some (BitVec.ofNat 8 (decimalFrom v rest).1, (decimalFrom v rest).2) else none

/-- `0x` and two hexadecimal digits, or a decimal number (R48). -/
def readByte (cs : List Char) : Option (Byte × List Char) :=
  match cs with
  | '0' :: 'x' :: h :: l :: rest =>
    match hexDigit h, hexDigit l with
    | some a, some b => some (BitVec.ofNat 8 (a * 16 + b), rest)
    | _, _ => none
  | _ => readDecimal cs

/-- One operand: a byte, or for a character operand also the character in single quotes (R48). -/
def readOperand (isChar : Bool) (cs : List Char) : Option (Byte × List Char) :=
  match cs with
  | q :: c :: q' :: rest =>
    if isChar && q == squote && q' == squote then (charCode c).map fun b => (b, rest) else readByte cs
  | _ => readByte cs

/-- `n` further operands, a comma before each (R48). -/
def readMore (isChar : Bool) (n : Nat) (cs : List Char) : Option (List Byte × List Char) :=
  match n with
  | 0 => some ([], cs)
  | n + 1 =>
    match skipBlanks cs with
    | ',' :: rest =>
      match readOperand isChar (skipBlanks rest) with
      | none => none
      | some (b, cs') =>
        match readMore isChar n cs' with
        | none => none
        | some (bs, cs'') => some (b :: bs, cs'')
    | _ => none

/-- The operands of a mnemonic, separated by commas (R48). -/
def readOperands (isChar : Bool) (n : Nat) (cs : List Char) : Option (List Byte × List Char) :=
  match n with
  | 0 => some ([], cs)
  | n + 1 =>
    match readOperand isChar (skipBlanks cs) with
    | none => none
    | some (b, cs') =>
      match readMore isChar n cs' with
      | none => none
      | some (bs, cs'') => some (b :: bs, cs'')

/-- One double-quoted string of exactly four characters (R48, R46). -/
def readString (cs : List Char) : Option (List Byte × List Char) :=
  match skipBlanks cs with
  | q :: a :: b :: c :: d :: q' :: rest =>
    if q == dquote && q' == dquote then
      match charCode a, charCode b, charCode c, charCode d with
      | some a, some b, some c, some d => some ([a, b, c, d], rest)
      | _, _, _, _ => none
    else none
  | _ => none

/-- The operand part of a line for a mnemonic (R48). -/
def readArguments (m : Mnemonic) (cs : List Char) : Option (List Byte × List Char) :=
  match (if takesString m then readString cs else none) with
  | some r => some r
  | none => readOperands (operandShape m).2 (operandShape m).1 cs

/-- A character that may not follow a mnemonic directly: the mnemonic's own letters. -/
def isWordChar (c : Char) : Bool := !isBlankChar c && c != ';'

/-- The first word of a line and the rest of the line. -/
def firstWord (cs : List Char) : List Char × List Char := (cs.takeWhile isWordChar, cs.dropWhile isWordChar)

/-- One line of text (R48). -/
def parseLine (cs : List Char) : TextLine :=
  if lineEnds cs then .blank
  else
    match allMnemonics.find? (fun m => mnemonicText m == (firstWord (skipBlanks cs)).1) with
    | none => .malformed
    | some m =>
      match readArguments m (firstWord (skipBlanks cs)).2 with
      | none => .malformed
      | some (ops, rest) =>
        if lineEnds rest then
          match assemble m ops with
          | some i => .command i
          | none => .malformed
        else .malformed

/-- The character of a hexadecimal digit. -/
def hexChar (n : Nat) : Char := if n < 10 then Char.ofNat (48 + n) else Char.ofNat (55 + n)

/-- A byte as `0x` and two hexadecimal digits (R48). -/
def showByte (b : Byte) : List Char := ['0', 'x', hexChar (b.toNat / 16), hexChar (b.toNat % 16)]

/-- Operands separated by commas (R48). -/
def showOperands (bs : List Byte) : List Char :=
  match bs with
  | [] => []
  | [b] => ' ' :: showByte b
  | b :: c :: rest => ' ' :: showByte b ++ [','] ++ showOperands (c :: rest)

/-- A command as one line of text (R48). -/
def showInstr (i : Instr) : List Char := mnemonicText (disassemble i).1 ++ showOperands (disassemble i).2

end Sys2Proof.Machine
end

