-- ==== Sys2Proof/Safety.lean ====
section
/-! DEFINITION. The terms claims use: the idle bus state (10_state.md rule R13), what a command leaves alone, the
invariants of the machine, and the named premises of 70_reset_and_hazards.md rule R103. -/

namespace Sys2Proof.Machine

/-- The idle bus state (R13): `CE` = 1, `DIN` = 0, `CLK` = 0, `RS` = 0. -/
def idleBus : Lines := ⟨.high, .low, .low, .low⟩

/-- The configuration registers are the same (R14 to R16). -/
def SameConfig (s t : State) : Prop :=
  t.cfgDelay = s.cfgDelay ∧ t.cfgBright = s.cfgBright ∧ t.cfgId = s.cfgId

/-- Everything but the lines, the trace and the working registers is the same: the configuration registers, the sequencer,
the host's words and the step semantics. -/
def SameControl (s t : State) : Prop :=
  SameConfig s t ∧ t.seq = s.seq ∧ t.hostWords = s.hostWords ∧ t.grain = s.grain

/-- The working registers are the same (R18, R19). -/
def SameWork (s t : State) : Prop :=
  t.sr = s.sr ∧ t.bitcnt = s.bitcnt ∧ t.colcnt = s.colcnt ∧ t.chrcnt = s.chrcnt

/-- R20: in `BUSY(cmd, upc)` the count is below the length of `Events(cmd)`. -/
def SeqBounded (s : State) : Prop :=
  match s.seq with
  | .idle => True
  | .busy i k => k < (eventsIn s i).length

/-- R11 with R24: the levels are what the events since reset make of four `U`. -/
def LinesFromTrace (s : State) : Prop := s.lines = applyEvents Lines.unknown s.trace

/-- R14, R16: `CFG_DELAY` and `CFG_ID` fit their widths. -/
def ConfigFits (s : State) : Prop := s.cfgDelay < 2 ^ Config.delayW ∧ s.cfgId < 2 ^ Config.identW

/-- Every line is at its idle level or has not been driven: `CE` not 0, `DIN`, `CLK` and `RS` not 1. -/
def Quiet (L : Lines) : Prop := L.ce ≠ .low ∧ L.din ≠ .high ∧ L.clk ≠ .high ∧ L.rs ≠ .high

/-- The lines are quiet at every command boundary (R31, R94), and a command in progress started from quiet lines. -/
def QuietAtBoundary (s : State) : Prop :=
  match s.seq with
  | .idle => Quiet s.lines
  | .busy i k => ∃ L0, Quiet L0 ∧ s.lines = applyEvents L0 ((eventsIn s i).take k)

/-- The invariant of the machine. -/
def Inv (s : State) : Prop := SeqBounded s ∧ LinesFromTrace s ∧ ConfigFits s ∧ QuietAtBoundary s

/-- Premise `FromReset` of R103. -/
def FromReset (s : State) : Prop := s.lines = Lines.unknown ∧ s.trace = [] ∧ s.seq = .idle

/-- Premise `FromIdle` of R103. -/
def FromIdle (s : State) : Prop := s.seq = .idle ∧ s.lines = idleBus

/-- Premise `HostKeepsDuties` of R103, as far as the machine can break it: the host presents only defined command words.
The host's other duties (R84) have no step in the model (log entry 13). -/
def HostKeepsDuties (s : State) : Prop := ∀ w ∈ s.hostWords, ∃ i, decode w = .instr i

/-- Premise `FontProps` of R103: P1 and P2 of R27 (P3 holds of every function). -/
def FontProps : Prop :=
  glyph Config.blankChar = ⟨0, 0, 0, 0, 0⟩ ∧
  ∀ ch, isMapped48 ch = false → ch ≠ Config.backtick → glyph ch = glyph Config.unknownChar

/-- A run leads from `s` to `t`: some number of steps, each answering a next state. -/
def Reaches (s t : State) : Prop := ∃ n, Host.Core.run Sys2Proof.core n s = .next t

/-- Premise `InitDone` of R103: "an `INIT` has completed earlier in the run". It is about a run, from a command boundary `s` to
a state `t` of any kind, also one in the middle of a later command: some step of the run ended an `INIT`. No state of the
block records it (R93), and the trace alone cannot tell it: `INIT_FRAMING`, `WRITE_TEXT` and `WRITE_REG0` issued one after
another have the events of an `INIT`. -/
def InitDone (s t : State) : Prop :=
  s.seq = .idle ∧ ∃ u v, Reaches s u ∧ commandEnded u = some .init ∧ step u = .next v ∧ Reaches v t

/-- Two states a command cannot tell apart: the same configuration, whatever the lines, the trace and the rest (R21, R93). -/
def SameForCommands (s t : State) : Prop := t.cfgDelay = s.cfgDelay ∧ t.cfgBright = s.cfgBright

end Sys2Proof.Machine
end

