-- ==== Sys2Proof/Certificates/Slice0/Obligations.lean ====
section
/-! DEFINITION. The statements for the provers. Each docstring names the rule of spec/ it comes from; a clause that rests on
the model's own choice names its log entry. -/

open Sys2Proof Sys2Proof.Machine

/-! ### Encoding -/

/-- R41, R42, R44: decoding the word of a command gives the command, for every command and every operand value. -/
def Obligations.DecodeEncodeIsIdentity : Prop :=
  ∀ i : Instr, decode (encode i) = .instr i

/-- R41, R45: a word that decodes to a command is that command's word: no bit of it is ignored. -/
def Obligations.EncodeDecodeIsIdentity : Prop :=
  ∀ (w : CmdWord) (i : Instr), decode w = .instr i → encode i = w

/-- R45: opcodes 0x00 and 0x0B to 0xFF, and defined opcodes with a must-be-zero bit set, decode to `Reserved`, no other word
does, and a step with such a word at the port is refused. -/
def Obligations.ReservedWordsAreRefused : Prop :=
  ∀ w : CmdWord,
    ((∃ why, decode w = .reserved why) ↔
      ((w.extractLsb' 40 8).toNat = 0x00 ∨ 0x0B ≤ (w.extractLsb' 40 8).toNat ∨
        ((w.extractLsb' 40 8).toNat ∈ [0x01, 0x07, 0x08] ∧ w.extractLsb' 0 40 ≠ 0) ∨
        ((w.extractLsb' 40 8).toNat ∈ [0x02, 0x04, 0x05, 0x09] ∧ w.extractLsb' 0 32 ≠ 0) ∨
        ((w.extractLsb' 40 8).toNat ∈ [0x06, 0x0A] ∧ w.extractLsb' 0 8 ≠ 0))) ∧
    ∀ (s : State) (ws : List CmdWord) (why : Reserved), s.seq = .idle → s.hostWords = w :: ws →
      decode w = .reserved why → step s = .refused (.reservedWord why)

/-- R43, R45: with `PRIMITIVES_EXPOSED = false` the opcodes 0x01 to 0x07 are reserved, and every other word decodes as it
does with `true`. -/
def Obligations.HiddenPrimitivesAreReserved : Prop :=
  ∀ w : CmdWord,
    (0x01 ≤ (w.extractLsb' 40 8).toNat → (w.extractLsb' 40 8).toNat ≤ 0x07 →
      ∃ why, decodeWith false w = .reserved why) ∧
    ((w.extractLsb' 40 8).toNat = 0 ∨ 0x07 < (w.extractLsb' 40 8).toNat → decodeWith false w = decode w)

/-- R41, R42 (V22 of 95_test_vectors.md): words written out from the encoding decode to their commands. -/
def Obligations.SpecWordsDecode : Prop :=
  decode 0x010000000000 = .instr .generateClock ∧
  decode 0x02B000000000 = .instr (.write 0xB0) ∧
  decode 0x030102030405 = .instr (.writeArray 0x01 0x02 0x03 0x04 0x05) ∧
  decode 0x045800000000 = .instr (.writeChar 0x58) ∧
  decode 0x054F00000000 = .instr (.writeReg0 0x4F) ∧
  decode 0x065445535400 = .instr (.writeText 0x54 0x45 0x53 0x54) ∧
  decode 0x070000000000 = .instr .initFraming ∧
  decode 0x080000000000 = .instr .init ∧
  decode 0x091400000000 = .instr (.updateBrightness 20) ∧
  decode 0x0A4162002000 = .instr (.updateText 0x41 0x62 0x00 0x20)

/-- R48: a command printed as a line of text reads back as the command. How the text is spaced is log entry 17. -/
def Obligations.TextReadsBack : Prop :=
  ∀ i : Instr, parseLine (showInstr i) = .command i

/-! ### The step -/

/-- R40, R21: with an idle block stepping by whole commands, a step runs exactly the command at the port, and takes that one
word (log entries 6 and 7). -/
def Obligations.StepRunsDecodedCommand : Prop :=
  ∀ (s : State) (w : CmdWord) (ws : List CmdWord) (i : Instr), s.seq = .idle → s.grain = .bigStep →
    s.hostWords = w :: ws → decode w = .instr i → step s = exec i { s with hostWords := ws }

/-- R21 small step: accepting a command sets `SEQ` to `BUSY(cmd, 0)` and nothing else but the port (log entries 6 and 7). -/
def Obligations.StepAcceptsCommand : Prop :=
  ∀ (s : State) (w : CmdWord) (ws : List CmdWord) (i : Instr), s.seq = .idle → s.grain = .smallStep →
    s.hostWords = w :: ws → decode w = .instr i → step s = .next { s with seq := .busy i 0, hostWords := ws }

/-- R21 small step: a step in `BUSY(cmd, k)` applies event `Events(cmd)[k]`, moves `SEQ` on or back to `IDLE`, and takes no
word from the port (log entry 12: delays end). -/
def Obligations.BusyStepIssuesOneEvent : Prop :=
  ∀ (s : State) (i : Instr) (k : Nat) (e : Event), s.seq = .busy i k → (eventsIn s i)[k]? = some e →
    ∃ t, step s = .next t ∧ t.trace = s.trace ++ [e] ∧ t.lines = applyEvent s.lines e ∧
      t.seq = (if k + 1 = (eventsIn s i).length then .idle else .busy i (k + 1)) ∧
      t.hostWords = s.hostWords ∧ t.grain = s.grain ∧ SameConfig s t

/-- R91: after reset the block does nothing until a command arrives, for any number of steps, and an idle block with nothing
at the port stays as it is. -/
def Obligations.NothingHappensUntilACommand : Prop :=
  (∀ n, Host.Core.run Sys2Proof.core n State.reset = .next State.reset) ∧
  ∀ s : State, s.seq = .idle → s.hostWords = [] → step s = .next s

/-- R21 big step: a command appends `Events(cmd)` to the trace, each line takes the level of its last `Set` or `Clear` in
`Events(cmd)` or keeps its own, and `SEQ`, the configuration and the port are as they were. That the command completes
rests on every delay ending, `DelaysEnd` of R103 (R82; PRESUMED, log entry 12). -/
def Obligations.CommandAppendsItsEvents : Prop :=
  ∀ (i : Instr) (s : State), ∃ t, exec i s = .next t ∧
    t.trace = s.trace ++ eventsIn s i ∧
    (∀ l, levelOf t.lines l = (lastLevel l (eventsIn s i)).getD (levelOf s.lines l)) ∧
    SameControl s t

/-- R21: the two step semantics agree at the command boundary: accepting a command and issuing its events one by one reaches
the state that running it whole reaches, in as many steps as it has events and one (log entries 6 to 9, and 12: delays
end). -/
def Obligations.BothStepSemanticsAgree : Prop :=
  ∀ (s : State) (w : CmdWord) (ws : List CmdWord) (i : Instr), s.seq = .idle → s.grain = .smallStep →
    s.hostWords = w :: ws → decode w = .instr i →
    Host.Core.run Sys2Proof.core (1 + (eventsIn s i).length) s = exec i { s with hostWords := ws }

/-- R79, R87: a command in progress reaches its end after exactly the events it has left, all of which it issues (log entry 12:
delays end). -/
def Obligations.CommandInProgressEnds : Prop :=
  ∀ (s : State) (i : Instr) (k : Nat), s.seq = .busy i k → k < (eventsIn s i).length →
    ∃ t, Host.Core.run Sys2Proof.core ((eventsIn s i).length - k) s = .next t ∧ t.seq = .idle ∧
      t.trace = s.trace ++ (eventsIn s i).drop k ∧ t.lines = applyEvents s.lines ((eventsIn s i).drop k) ∧
      t.hostWords = s.hostWords

/-- R21, R35, R40: commands take effect in the order the host presents them, and the trace of a run is the concatenation of
their event lists (log entries 6 and 7; 12: delays end). -/
def Obligations.RunIsConcatenation : Prop :=
  ∀ (cmds : List Instr) (s : State), s.seq = .idle → s.grain = .bigStep → s.hostWords = cmds.map encode →
    ∃ t, Host.Core.run Sys2Proof.core cmds.length s = .next t ∧
      t.trace = s.trace ++ cmds.flatMap (eventsIn s) ∧
      t.lines = applyEvents s.lines (cmds.flatMap (eventsIn s)) ∧
      t.seq = .idle ∧ t.hostWords = [] ∧ SameConfig s t

/-! ### Reset and invariants -/

/-- R24, R90: what reset leaves, for every configuration. -/
def Obligations.ResetLeaves : Prop :=
  (∀ (d : Nat) (b : Byte) (k : Nat), FromReset (State.resetWith d b k) ∧
    (State.resetWith d b k).cfgDelay = d ∧ (State.resetWith d b k).cfgBright = b ∧ (State.resetWith d b k).cfgId = k) ∧
  State.reset = State.resetWith Config.delay Config.bright Config.ident

/-- R24 with R10, R11, R14, R16, R20, R31: the machine's invariant holds at reset. -/
def Obligations.ResetMeetsInvariant : Prop := Inv State.reset

/-- R10, R11, R14, R16, R20, R31, R94: every step keeps the invariant: `upc` in its bound, the levels those the trace since
reset gives, the configuration within its widths, and quiet lines at every command boundary. -/
def Obligations.StepKeepsInvariant : Prop :=
  ∀ s t : State, Inv s → step s = .next t → Inv t

/-- R75, R20: the only fault is that of a `BUSY(cmd, upc)` out of its bound, which is no state of R20 (log entry 10). -/
def Obligations.FaultOnlyOutOfBound : Prop :=
  ∀ s : State, (∃ r, step s = .fault r) ↔ ¬ SeqBounded s

/-- R45: a step is refused only for a `Reserved` word at the port of an idle block. -/
def Obligations.RefusalOnlyOfReservedWord : Prop :=
  ∀ (s : State) (r : Refusal), step s = .refused r →
    s.seq = .idle ∧ ∃ w ws why, s.hostWords = w :: ws ∧ decode w = .reserved why ∧ r = .reservedWord why

/-- R75, R79, R84: while the host presents defined command words only, no run from a state of the invariant ever stops (log
entries 12 and 13: delays end, and the host keeps its other duties). -/
def Obligations.DutifulRunsNeverStop : Prop :=
  ∀ (n : Nat) (s : State), Inv s → HostKeepsDuties s →
    ∃ t, Host.Core.run Sys2Proof.core n s = .next t ∧ Inv t ∧ HostKeepsDuties t

/-- R11: the trace is append-only: what a step leaves begins with what was there. -/
def Obligations.TraceIsAppendOnly : Prop :=
  ∀ s t : State, step s = .next t → s.trace <+: t.trace

/-- R10: a line that has left `U` never returns to it by a step. -/
def Obligations.UnknownLevelNeverReturns : Prop :=
  ∀ (s t : State) (l : Line), step s = .next t → levelOf t.lines l = .unknown → levelOf s.lines l = .unknown

/-- R14, R15, R16, R84: no step writes a configuration register. -/
def Obligations.NoStepWritesConfiguration : Prop :=
  ∀ s t : State, step s = .next t → SameConfig s t

/-- R14: every delay of every command has the one configured count. -/
def Obligations.EveryDelayIsTheConfiguredOne : Prop :=
  ∀ (s : State) (i : Instr) (n : Nat), Event.delay n ∈ eventsIn s i → n = s.cfgDelay

/-- R21, R93: what a command appends does not depend on the levels, the trace or the working registers before it. -/
def Obligations.CommandsIgnoreLinesAndHistory : Prop :=
  ∀ (s s' : State) (i : Instr), SameForCommands s s' →
    ∃ t t' es, exec i s = .next t ∧ exec i s' = .next t' ∧ t.trace = s.trace ++ es ∧ t'.trace = s'.trace ++ es

/-! ### The clock pulse generator and the bit shifter -/

/-- R50: `GENERATE_CLOCK` issues its five events, leaves `CLK` low, and changes nothing else. -/
def Obligations.GenerateClockResult : Prop :=
  ∀ s : State, exec .generateClock s = .next { s with
    trace := s.trace ++ [.clear .clk, .delay s.cfgDelay, .set .clk, .delay s.cfgDelay, .clear .clk],
    lines := { s.lines with clk := .low } }

/-- R51: a pulse has exactly one rising edge, from every level of `CLK`, and samples the levels it met. -/
def Obligations.PulseHasOneRisingEdge : Prop :=
  ∀ (s : State) (L : Lines), sampled (eventsIn s .generateClock) L = [⟨L.ce, L.rs, L.din⟩]

/-- R52: `WRITE` drives each bit from bit 7 down to bit 0 before a pulse and ends with `Clear(DIN)`; it leaves `DIN` and
`CLK` low and `SR` zero, and changes nothing else but `BITCNT`. -/
def Obligations.WriteResult : Prop :=
  ∀ (s : State) (b : Byte), ∃ t, exec (.write b) s = .next t ∧
    t.trace = s.trace ++
      (([7, 6, 5, 4, 3, 2, 1, 0] : List Nat).flatMap fun i =>
        [if b.getLsbD i then Event.set .din else .clear .din, .clear .clk, .delay s.cfgDelay, .set .clk,
          .delay s.cfgDelay, .clear .clk]) ++ [.clear .din] ∧
    t.lines = { s.lines with din := .low, clk := .low } ∧ t.sr = 0 ∧
    t.colcnt = s.colcnt ∧ t.chrcnt = s.chrcnt ∧ SameControl s t

/-- R54: after `k` rounds of the loop of `WRITE` the shift register holds the byte shifted left `k` times, so the bit of
round `k` is bit `7 - k` of the byte. -/
def Obligations.ShiftRegisterAfterRounds : Prop :=
  ∀ (s : State) (b : Byte) (k : Nat), k ≤ 8 →
    (runProg (.loadSr b :: (bitLoop.take k).flatMap writeBitProg) s).sr = b <<< k ∧
    (k < 8 → (runProg (.loadSr b :: (bitLoop.take k).flatMap writeBitProg) s).sr.msb = b.getLsbD (7 - k))

/-- R53: `WRITE` puts its eight bits on the wire, bit 7 first, at eight rising edges, with `CE` and `RS` as they were. -/
def Obligations.WriteOnTheWire : Prop :=
  ∀ (s : State) (b : Byte) (L : Lines), sampled (eventsIn s (.write b)) L =
    ([7, 6, 5, 4, 3, 2, 1, 0] : List Nat).map fun i => ⟨L.ce, L.rs, if b.getLsbD i then .high else .low⟩

/-! ### The column composer and the glyph table -/

/-- R55: `WRITE_ARRAY` issues the events of its five `WRITE`s in order; it leaves `DIN` and `CLK` low and changes nothing else
but `SR`, `BITCNT` and `COLCNT`. -/
def Obligations.WriteArrayResult : Prop :=
  ∀ (s : State) (b0 b1 b2 b3 b4 : Byte), ∃ t, exec (.writeArray b0 b1 b2 b3 b4) s = .next t ∧
    t.trace = s.trace ++ (eventsIn s (.write b0) ++ eventsIn s (.write b1) ++ eventsIn s (.write b2) ++
      eventsIn s (.write b3) ++ eventsIn s (.write b4)) ∧
    t.lines = { s.lines with din := .low, clk := .low } ∧ t.chrcnt = s.chrcnt ∧ SameControl s t

/-- R56: the 40 bits `WRITE_ARRAY` puts on the wire, bit 7 of the first byte first. -/
def Obligations.WriteArrayOnTheWire : Prop :=
  ∀ (s : State) (b0 b1 b2 b3 b4 : Byte) (L : Lines),
    (sampled (eventsIn s (.writeArray b0 b1 b2 b3 b4)) L).map (fun x => x.din) =
      [b0, b1, b2, b3, b4].flatMap fun b =>
        ([7, 6, 5, 4, 3, 2, 1, 0] : List Nat).map fun i => if b.getLsbD i then Level.high else .low

/-- R57: `WRITE_CHAR` issues the events of `WRITE_ARRAY` of its glyph, that of 'X' for an unmapped code and five zero bytes for
the space; it leaves `DIN` and `CLK` low and changes nothing else but `SR`, `BITCNT` and `COLCNT`. -/
def Obligations.WriteCharResult : Prop :=
  ∀ (s : State) (ch : Byte), ∃ t, exec (.writeChar ch) s = .next t ∧
    t.trace = s.trace ++ eventsIn s (.writeArray (glyph ch).g0 (glyph ch).g1 (glyph ch).g2 (glyph ch).g3 (glyph ch).g4) ∧
    (isMapped48 ch = false → ch ≠ 0x60 → glyph ch = glyph 0x58) ∧ (ch = 0x20 → glyph ch = ⟨0, 0, 0, 0, 0⟩) ∧
    t.lines = { s.lines with din := .low, clk := .low } ∧ t.chrcnt = s.chrcnt ∧ SameControl s t

/-- R26, R27 (P1, P2), R28: the space is five zeros, and a code that is no letter A to Z, no digit, no space, none of the
eleven symbols and not 0x60 has the entry of 'X'. -/
def Obligations.GlyphKnownEntries : Prop :=
  glyph 0x20 = ⟨0x00, 0x00, 0x00, 0x00, 0x00⟩ ∧
  ∀ ch : Byte, ¬ (0x41 ≤ ch.toNat ∧ ch.toNat ≤ 0x5A) → ¬ (0x30 ≤ ch.toNat ∧ ch.toNat ≤ 0x39) →
    ch ∉ ([0x20, 0x3D, 0x2E, 0x3A, 0x3E, 0x3C, 0x2F, 0x21, 0x7C, 0x2D, 0x2B, 0x23] : List Byte) → ch ≠ 0x60 →
    glyph ch = glyph 0x58

/-- R58: `WRITE_CHAR` is deterministic; an unmapped character is sent as 'X' is; the space is sent as five zero bytes. -/
def Obligations.WriteCharProperties : Prop :=
  (∀ (s s' : State) (ch : Byte), SameForCommands s s' → eventsIn s' (.writeChar ch) = eventsIn s (.writeChar ch)) ∧
  (∀ (s : State) (ch : Byte), isMapped48 ch = false → ch ≠ 0x60 →
    ∃ t t', exec (.writeChar ch) s = .next t ∧ exec (.writeChar 0x58) s = .next t' ∧ t = t') ∧
  ∀ s : State, exec (.writeChar 0x20) s = exec (.writeArray 0 0 0 0 0) s

/-! ### The framed writers -/

/-- R60: `WRITE_REG0` frames the events of `WRITE` with `RS` high, leaves the idle bus state from every state, and changes
nothing else but `SR` and `BITCNT`. -/
def Obligations.WriteReg0Result : Prop :=
  ∀ (s : State) (v : Byte), ∃ t, exec (.writeReg0 v) s = .next t ∧
    t.trace = s.trace ++ ([.set .rs, .delay s.cfgDelay, .clear .ce, .delay s.cfgDelay] ++ eventsIn s (.write v) ++
      [.set .ce, .delay s.cfgDelay, .clear .clk, .delay s.cfgDelay, .clear .rs]) ∧
    t.lines = idleBus ∧ t.colcnt = s.colcnt ∧ t.chrcnt = s.chrcnt ∧ SameControl s t

/-- R62: `WRITE_TEXT` frames the events of its four `WRITE_CHAR`s with `RS` low, leaves the idle bus state from every state,
and changes nothing else but the working registers. -/
def Obligations.WriteTextResult : Prop :=
  ∀ (s : State) (c0 c1 c2 c3 : Byte), ∃ t, exec (.writeText c0 c1 c2 c3) s = .next t ∧
    t.trace = s.trace ++ ([.clear .rs, .delay s.cfgDelay, .clear .ce, .delay s.cfgDelay] ++
      (eventsIn s (.writeChar c0) ++ eventsIn s (.writeChar c1) ++ eventsIn s (.writeChar c2) ++
        eventsIn s (.writeChar c3)) ++
      [.set .ce, .delay s.cfgDelay, .clear .clk, .delay s.cfgDelay, .clear .din]) ∧
    t.lines = idleBus ∧ SameControl s t

/-- R63: from `CE` not low, each framed writer puts exactly one frame on the wire, `WRITE_REG0` at the control register with
the eight bits of its byte, `WRITE_TEXT` at the display data with the 160 bits of its four glyphs, every sample inside the
frame with `CE` low. -/
def Obligations.FramedWritersOnTheWire : Prop :=
  ∀ (s : State) (L : Lines), L.ce ≠ .low →
    (∀ v : Byte,
      frames (eventsIn s (.writeReg0 v)) L = [⟨some .registerSelect, byteLevels v⟩] ∧
      sampled (eventsIn s (.writeReg0 v)) L = (byteLevels v).map fun x => ⟨.low, .high, x⟩) ∧
    ∀ c0 c1 c2 c3 : Byte,
      frames (eventsIn s (.writeText c0 c1 c2 c3)) L =
        [⟨some .normal, glyphLevels (glyph c0) ++ glyphLevels (glyph c1) ++ glyphLevels (glyph c2) ++
          glyphLevels (glyph c3)⟩] ∧
      sampled (eventsIn s (.writeText c0 c1 c2 c3)) L =
        (glyphLevels (glyph c0) ++ glyphLevels (glyph c1) ++ glyphLevels (glyph c2) ++ glyphLevels (glyph c3)).map
          fun x => ⟨.low, .low, x⟩

/-- R12, R60, R67, R69: `Set(RS)` is issued by `WRITE_REG0` and by the two commands that call it, and by no other. -/
def Obligations.OnlyReg0RaisesRegisterSelect : Prop :=
  ∀ (s : State) (i : Instr), Event.set .rs ∈ eventsIn s i ↔
    ((∃ v, i = .writeReg0 v) ∨ i = .init ∨ ∃ v, i = .updateBrightness v)

/-- R94, R97, R66: the four unframed primitives write neither `CE` nor `RS`, and `INIT_FRAMING` does not write `RS`. -/
def Obligations.PrimitivesDoNoFraming : Prop :=
  ∀ (s : State) (i : Instr) (e : Event), e ∈ eventsIn s i →
    ((i = .generateClock ∨ (∃ b, i = .write b) ∨ (∃ b0 b1 b2 b3 b4, i = .writeArray b0 b1 b2 b3 b4) ∨
        ∃ ch, i = .writeChar ch) → writesLine .ce e = false ∧ writesLine .rs e = false) ∧
    (i = .initFraming → writesLine .rs e = false)

/-! ### The session controller -/

/-- R65: the clamp is the minimum with 15, idempotent, and leaves values in range unchanged. -/
def Obligations.ClampSaturates : Prop :=
  ∀ v : Byte, (clamp v).toNat = min v.toNat 15 ∧ (v.toNat ≤ 15 → clamp v = v) ∧ clamp (clamp v) = clamp v

/-- R61, R71: the brightness byte is `0x40 + min(v, 15)`, lies in 0x40..0x4F, and equals the bitwise or. -/
def Obligations.BrightnessByteIsSumAndOr : Prop :=
  ∀ v : Byte, (brightnessByte v).toNat = 0x40 + min v.toNat 15 ∧ (brightnessByte v).toNat ≤ 0x4F ∧
    brightnessByte v = 0x40 ||| clamp v

/-- R66: `INIT_FRAMING` issues its three events, leaves `CE` high and `CLK` and `DIN` low, and changes nothing else. -/
def Obligations.InitFramingResult : Prop :=
  ∀ s : State, exec .initFraming s = .next { s with
    trace := s.trace ++ [.set .ce, .clear .clk, .clear .din],
    lines := { s.lines with ce := .high, clk := .low, din := .low } }

/-- R67: `INIT` issues the framing, the text frame of four spaces and the register frame of the clamped `CFG_BRIGHT`, in that
order; it leaves the idle bus state from every state, and changes nothing else but the working registers. -/
def Obligations.InitResult : Prop :=
  ∀ s : State, ∃ t, exec .init s = .next t ∧
    t.trace = s.trace ++ ([.set .ce, .clear .clk, .clear .din] ++ eventsIn s (.writeText 0x20 0x20 0x20 0x20) ++
      eventsIn s (.writeReg0 (BitVec.ofNat 8 (0x40 + min s.cfgBright.toNat 15)))) ∧
    t.lines = idleBus ∧ SameControl s t

/-- R68: `INIT` puts two frames on the wire, 160 zero bits at the display data and then the brightness byte at the control
register, and no rising edge lies outside them. -/
def Obligations.InitOnTheWire : Prop :=
  ∀ (s : State) (L : Lines),
    frames (eventsIn s .init) L =
      [⟨some .normal, List.replicate 160 .low⟩,
        ⟨some .registerSelect, [.low, .high, .low, .low] ++
          ([3, 2, 1, 0] : List Nat).map fun i => if (clamp s.cfgBright).getLsbD i then Level.high else .low⟩] ∧
    ∀ x ∈ sampled (eventsIn s .init) L, x.ce = .low

/-- R69: `UPDATE_BRIGHTNESS` is `WRITE_REG0` of the clamped value under the mask; it leaves the idle bus state, does not write
`CFG_BRIGHT`, and changes nothing else but `SR` and `BITCNT`. -/
def Obligations.UpdateBrightnessResult : Prop :=
  ∀ (s : State) (v : Byte), ∃ t, exec (.updateBrightness v) s = .next t ∧
    exec (.writeReg0 (BitVec.ofNat 8 (0x40 + min v.toNat 15))) s = .next t ∧
    t.trace = s.trace ++ eventsIn s (.writeReg0 (BitVec.ofNat 8 (0x40 + min v.toNat 15))) ∧
    t.lines = idleBus ∧ t.cfgBright = s.cfgBright ∧ t.colcnt = s.colcnt ∧ t.chrcnt = s.chrcnt ∧ SameControl s t

/-- R70: `UPDATE_TEXT` is `WRITE_TEXT` with the same operands; it leaves the idle bus state. -/
def Obligations.UpdateTextResult : Prop :=
  ∀ (s : State) (c0 c1 c2 c3 : Byte), ∃ t, exec (.updateText c0 c1 c2 c3) s = .next t ∧
    exec (.writeText c0 c1 c2 c3) s = .next t ∧
    t.trace = s.trace ++ eventsIn s (.writeText c0 c1 c2 c3) ∧ t.lines = idleBus ∧ SameControl s t

/-- R72: after any public operation, from any state, register-select is low and the bus is in the idle bus state. -/
def Obligations.PublicOperationsEndIdle : Prop :=
  ∀ (s : State) (i : Instr), i.isPublic = true →
    ∃ t, exec i s = .next t ∧ t.lines.rs = .low ∧ addressing t.lines = some .normal ∧
      t.lines = { ce := .high, din := .low, clk := .low, rs := .low }

/-- R15, R100 (P2 of 95_test_vectors.md): the brightness is not mirrored: an `INIT` after an `UPDATE_BRIGHTNESS` sends the
configured value again. -/
def Obligations.BrightnessIsNotMirrored : Prop :=
  ∀ (s : State) (v : Byte), ∃ t u, exec (.updateBrightness v) s = .next t ∧ exec .init t = .next u ∧
    t.cfgBright = s.cfgBright ∧ u.trace = s.trace ++ eventsIn s (.updateBrightness v) ++ eventsIn s .init

/-- R92, R103: an `INIT` issued to an idle block, from reset among others, establishes `FromIdle` and `InitDone`: as one step
or event by event, and its meaning appends the events of `INIT` (log entries 6, 7 and 12). -/
def Obligations.InitEstablishesPremises : Prop :=
  (∀ s : State, s.seq = .idle →
    ∃ t, exec .init s = .next t ∧ FromIdle t ∧ t.trace = s.trace ++ eventsIn s .init) ∧
  ∀ (s : State) (w : CmdWord) (ws : List CmdWord), s.seq = .idle → s.hostWords = w :: ws → decode w = .instr .init →
    ∃ t, Host.Core.run Sys2Proof.core (match s.grain with | .bigStep => 1 | .smallStep => 1 + (eventsIn s .init).length) s =
        .next t ∧
      FromIdle t ∧ InitDone s t ∧ t.hostWords = ws ∧ t.trace = s.trace ++ eventsIn s .init

/-- R103: `InitDone` says that an `INIT` has completed earlier in the run: once true it stays true in every later state of the
run, in the middle of a command too; it implies that the host presented the word of `INIT` and that the run's trace holds
the events of `INIT`, so that the three primitives with the same events do not meet it. -/
def Obligations.InitDoneMeansInitCompleted : Prop :=
  (∀ s t u : State, InitDone s t → step t = .next u → InitDone s u) ∧
  ∀ s t : State, InitDone s t → encode .init ∈ s.hostWords ∧
    ∃ pre post, t.trace = s.trace ++ (pre ++ eventsIn s .init ++ post)

/-! ### Counts and timing -/

/-- R101: the size of every operation: its events, its `Delay`s, its rising edges of `CLK` from any levels, and its pin
writes. -/
def Obligations.OperationSizes : Prop :=
  ∀ (s : State) (L : Lines) (i : Instr),
    ((eventsIn s i).length, delayCount (eventsIn s i), (sampled (eventsIn s i) L).length,
      (eventsIn s i).countP fun e => !isDelay e) =
    match i with
    | .generateClock => (5, 2, 1, 3)
    | .write _ => (49, 16, 8, 33)
    | .writeArray _ _ _ _ _ => (245, 80, 40, 165)
    | .writeChar _ => (245, 80, 40, 165)
    | .writeReg0 _ => (58, 20, 8, 38)
    | .writeText _ _ _ _ => (989, 324, 160, 665)
    | .initFraming => (3, 0, 0, 3)
    | .init => (1050, 344, 168, 706)
    | .updateBrightness _ => (58, 20, 8, 38)
    | .updateText _ _ _ _ => (989, 324, 160, 665)

/-- R102: an operation with `k` delays lasts at least `k` times `CFG_DELAY` times 100 ns: 344 for `INIT`, 324 for a text
update, 20 for a brightness update. -/
def Obligations.LeastDurations : Prop :=
  ∀ s : State,
    (∀ i : Instr, leastNs (eventsIn s i) = delayCount (eventsIn s i) * s.cfgDelay * 100) ∧
    leastNs (eventsIn s .init) = 344 * s.cfgDelay * 100 ∧
    (∀ c0 c1 c2 c3, leastNs (eventsIn s (.updateText c0 c1 c2 c3)) = 324 * s.cfgDelay * 100) ∧
    ∀ v, leastNs (eventsIn s (.updateBrightness v)) = 20 * s.cfgDelay * 100

/-- R98: the lower bounds between events, in delays: `CLK` low before a rising edge, `CLK` high after it, data set-up, data
hold, clock period, `RS` to `CE` falling, `CE` falling to the first rising edge, the last rising edge to `CE` rising, for
every command; and `CE` rising to `RS` falling in `WRITE_REG0`. -/
def Obligations.SpacingLowerBounds : Prop :=
  ∀ s : State,
    (∀ i : Instr,
      gapsAtLeast 1 (fun e => e == .clear .clk) (fun e => e == .set .clk) (eventsIn s i) = true ∧
      gapsAtLeast 1 (fun e => e == .set .clk) (fun e => e == .clear .clk) (eventsIn s i) = true ∧
      gapsAtLeast 1 (writesLine .din) (fun e => e == .set .clk) (eventsIn s i) = true ∧
      gapsAtLeast 1 (fun e => e == .set .clk) (writesLine .din) (eventsIn s i) = true ∧
      gapsAtLeast 2 (fun e => e == .set .clk) (fun e => e == .set .clk) (eventsIn s i) = true ∧
      gapsAtLeast 1 (writesLine .rs) (fun e => e == .clear .ce) (eventsIn s i) = true ∧
      gapsAtLeast 2 (fun e => e == .clear .ce) (fun e => e == .set .clk) (eventsIn s i) = true ∧
      gapsAtLeast 1 (fun e => e == .set .clk) (fun e => e == .set .ce) (eventsIn s i) = true) ∧
    ∀ v, gapsAtLeast 2 (fun e => e == .set .ce) (fun e => e == .clear .rs) (eventsIn s (.writeReg0 v)) = true

/-- R99: back to back, two framed writes keep `CE` high for at least three delays between their frames. -/
def Obligations.BackToBackFramesAreSpaced : Prop :=
  ∀ (s : State) (i j : Instr),
    ((∃ v, i = .writeReg0 v) ∨ (∃ c0 c1 c2 c3, i = .writeText c0 c1 c2 c3) ∨ (∃ v, i = .updateBrightness v) ∨
      ∃ c0 c1 c2 c3, i = .updateText c0 c1 c2 c3) →
    ((∃ v, j = .writeReg0 v) ∨ (∃ c0 c1 c2 c3, j = .writeText c0 c1 c2 c3) ∨ (∃ v, j = .updateBrightness v) ∨
      ∃ c0 c1 c2 c3, j = .updateText c0 c1 c2 c3) →
    gapsAtLeast 3 (fun e => e == .set .ce) (fun e => e == .clear .ce) (eventsIn s i ++ eventsIn s j) = true
end

