-- ==== Sys2Proof/Laws/Decode.lean ====
section
/-! SUPPORT. The fields of a packed command word: what each field reads is what was packed (30_encoding.md rule R41), and a
word is determined by its fields. -/

namespace Sys2Proof

section
variable (op a b c d e : Byte)

theorem packWord_toNat : (packWord op a b c d e).toNat =
    op.toNat * 2 ^ 40 + a.toNat * 2 ^ 32 + b.toNat * 2 ^ 24 + c.toNat * 2 ^ 16 + d.toNat * 2 ^ 8 + e.toNat := by
  have ha := a.isLt
  have hb := b.isLt
  have hc := c.isLt
  have hd := d.isLt
  have he := e.isLt
  unfold packWord
  simp only [BitVec.toNat_append]
  rw [← Nat.shiftLeft_add_eq_or_of_lt he, ← Nat.shiftLeft_add_eq_or_of_lt hd, ← Nat.shiftLeft_add_eq_or_of_lt hc,
    ← Nat.shiftLeft_add_eq_or_of_lt hb, ← Nat.shiftLeft_add_eq_or_of_lt ha]
  simp only [Nat.shiftLeft_eq]
  omega

@[simp] theorem opcodeField_packWord : opcodeField (packWord op a b c d e) = op := by
  apply BitVec.eq_of_toNat_eq
  simp only [opcodeField, BitVec.extractLsb'_toNat, packWord_toNat, Nat.shiftRight_eq_div_pow]
  omega

@[simp] theorem p0Field_packWord : p0Field (packWord op a b c d e) = a := by
  apply BitVec.eq_of_toNat_eq
  simp only [p0Field, BitVec.extractLsb'_toNat, packWord_toNat, Nat.shiftRight_eq_div_pow]
  omega

@[simp] theorem p1Field_packWord : p1Field (packWord op a b c d e) = b := by
  apply BitVec.eq_of_toNat_eq
  simp only [p1Field, BitVec.extractLsb'_toNat, packWord_toNat, Nat.shiftRight_eq_div_pow]
  omega

@[simp] theorem p2Field_packWord : p2Field (packWord op a b c d e) = c := by
  apply BitVec.eq_of_toNat_eq
  simp only [p2Field, BitVec.extractLsb'_toNat, packWord_toNat, Nat.shiftRight_eq_div_pow]
  omega

@[simp] theorem p3Field_packWord : p3Field (packWord op a b c d e) = d := by
  apply BitVec.eq_of_toNat_eq
  simp only [p3Field, BitVec.extractLsb'_toNat, packWord_toNat, Nat.shiftRight_eq_div_pow]
  omega

@[simp] theorem p4Field_packWord : p4Field (packWord op a b c d e) = e := by
  apply BitVec.eq_of_toNat_eq
  simp only [p4Field, BitVec.extractLsb'_toNat, packWord_toNat, Nat.shiftRight_eq_div_pow]
  omega

end

/-- A word is the packing of its six fields. -/
theorem packWord_fields (w : CmdWord) :
    packWord (opcodeField w) (p0Field w) (p1Field w) (p2Field w) (p3Field w) (p4Field w) = w := by
  apply BitVec.eq_of_toNat_eq
  have := w.isLt
  simp only [packWord_toNat, opcodeField, p0Field, p1Field, p2Field, p3Field, p4Field, BitVec.extractLsb'_toNat,
    Nat.shiftRight_eq_div_pow]
  omega

/-- The padding of format `N` is zero exactly when all five operand bytes are. -/
theorem paddingZero_n (w : CmdWord) :
    paddingZero .n w = true ↔ p0Field w = 0 ∧ p1Field w = 0 ∧ p2Field w = 0 ∧ p3Field w = 0 ∧ p4Field w = 0 := by
  simp only [paddingZero, beq_iff_eq, p0Field, p1Field, p2Field, p3Field, p4Field, ← BitVec.toNat_inj,
    BitVec.extractLsb'_toNat, Nat.shiftRight_eq_div_pow, BitVec.ofNat_eq_ofNat, BitVec.toNat_ofNat]
  omega

/-- The padding of format `B` is zero exactly when the last four operand bytes are. -/
theorem paddingZero_b (w : CmdWord) :
    paddingZero .b w = true ↔ p1Field w = 0 ∧ p2Field w = 0 ∧ p3Field w = 0 ∧ p4Field w = 0 := by
  simp only [paddingZero, beq_iff_eq, p1Field, p2Field, p3Field, p4Field, ← BitVec.toNat_inj,
    BitVec.extractLsb'_toNat, Nat.shiftRight_eq_div_pow, BitVec.ofNat_eq_ofNat, BitVec.toNat_ofNat]
  omega

/-- The padding of format `T` is the last operand byte. -/
theorem paddingZero_t (w : CmdWord) : paddingZero .t w = true ↔ p4Field w = 0 := by
  simp [paddingZero, p4Field]

end Sys2Proof
end

