-- ==== Sys2Proof/Laws/State.lean ====
section
/-! SUPPORT. One lemma per field per named update of the state, each true by rfl: no later proof unfolds a record update. -/

namespace Sys2Proof.Machine

@[simp] theorem issue_lines (e : Event) (s : State) : (issue e s).lines = applyEvent s.lines e := rfl
@[simp] theorem issue_trace (e : Event) (s : State) : (issue e s).trace = s.trace ++ [e] := rfl
@[simp] theorem issue_seq (e : Event) (s : State) : (issue e s).seq = s.seq := rfl
@[simp] theorem issue_sr (e : Event) (s : State) : (issue e s).sr = s.sr := rfl
@[simp] theorem issue_bitcnt (e : Event) (s : State) : (issue e s).bitcnt = s.bitcnt := rfl
@[simp] theorem issue_colcnt (e : Event) (s : State) : (issue e s).colcnt = s.colcnt := rfl
@[simp] theorem issue_chrcnt (e : Event) (s : State) : (issue e s).chrcnt = s.chrcnt := rfl
@[simp] theorem issue_cfgDelay (e : Event) (s : State) : (issue e s).cfgDelay = s.cfgDelay := rfl
@[simp] theorem issue_cfgBright (e : Event) (s : State) : (issue e s).cfgBright = s.cfgBright := rfl
@[simp] theorem issue_cfgId (e : Event) (s : State) : (issue e s).cfgId = s.cfgId := rfl
@[simp] theorem issue_hostWords (e : Event) (s : State) : (issue e s).hostWords = s.hostWords := rfl
@[simp] theorem issue_grain (e : Event) (s : State) : (issue e s).grain = s.grain := rfl

@[simp] theorem putSr_lines (v : Byte) (s : State) : (putSr v s).lines = s.lines := rfl
@[simp] theorem putSr_trace (v : Byte) (s : State) : (putSr v s).trace = s.trace := rfl
@[simp] theorem putSr_seq (v : Byte) (s : State) : (putSr v s).seq = s.seq := rfl
@[simp] theorem putSr_sr (v : Byte) (s : State) : (putSr v s).sr = v := rfl
@[simp] theorem putSr_bitcnt (v : Byte) (s : State) : (putSr v s).bitcnt = s.bitcnt := rfl
@[simp] theorem putSr_colcnt (v : Byte) (s : State) : (putSr v s).colcnt = s.colcnt := rfl
@[simp] theorem putSr_chrcnt (v : Byte) (s : State) : (putSr v s).chrcnt = s.chrcnt := rfl
@[simp] theorem putSr_cfgDelay (v : Byte) (s : State) : (putSr v s).cfgDelay = s.cfgDelay := rfl
@[simp] theorem putSr_cfgBright (v : Byte) (s : State) : (putSr v s).cfgBright = s.cfgBright := rfl
@[simp] theorem putSr_cfgId (v : Byte) (s : State) : (putSr v s).cfgId = s.cfgId := rfl
@[simp] theorem putSr_hostWords (v : Byte) (s : State) : (putSr v s).hostWords = s.hostWords := rfl
@[simp] theorem putSr_grain (v : Byte) (s : State) : (putSr v s).grain = s.grain := rfl

@[simp] theorem putBitcnt_lines (v : BitVec 3) (s : State) : (putBitcnt v s).lines = s.lines := rfl
@[simp] theorem putBitcnt_trace (v : BitVec 3) (s : State) : (putBitcnt v s).trace = s.trace := rfl
@[simp] theorem putBitcnt_seq (v : BitVec 3) (s : State) : (putBitcnt v s).seq = s.seq := rfl
@[simp] theorem putBitcnt_sr (v : BitVec 3) (s : State) : (putBitcnt v s).sr = s.sr := rfl
@[simp] theorem putBitcnt_bitcnt (v : BitVec 3) (s : State) : (putBitcnt v s).bitcnt = v := rfl
@[simp] theorem putBitcnt_colcnt (v : BitVec 3) (s : State) : (putBitcnt v s).colcnt = s.colcnt := rfl
@[simp] theorem putBitcnt_chrcnt (v : BitVec 3) (s : State) : (putBitcnt v s).chrcnt = s.chrcnt := rfl
@[simp] theorem putBitcnt_cfgDelay (v : BitVec 3) (s : State) : (putBitcnt v s).cfgDelay = s.cfgDelay := rfl
@[simp] theorem putBitcnt_cfgBright (v : BitVec 3) (s : State) : (putBitcnt v s).cfgBright = s.cfgBright := rfl
@[simp] theorem putBitcnt_cfgId (v : BitVec 3) (s : State) : (putBitcnt v s).cfgId = s.cfgId := rfl
@[simp] theorem putBitcnt_hostWords (v : BitVec 3) (s : State) : (putBitcnt v s).hostWords = s.hostWords := rfl
@[simp] theorem putBitcnt_grain (v : BitVec 3) (s : State) : (putBitcnt v s).grain = s.grain := rfl

@[simp] theorem putColcnt_lines (v : BitVec 3) (s : State) : (putColcnt v s).lines = s.lines := rfl
@[simp] theorem putColcnt_trace (v : BitVec 3) (s : State) : (putColcnt v s).trace = s.trace := rfl
@[simp] theorem putColcnt_seq (v : BitVec 3) (s : State) : (putColcnt v s).seq = s.seq := rfl
@[simp] theorem putColcnt_sr (v : BitVec 3) (s : State) : (putColcnt v s).sr = s.sr := rfl
@[simp] theorem putColcnt_bitcnt (v : BitVec 3) (s : State) : (putColcnt v s).bitcnt = s.bitcnt := rfl
@[simp] theorem putColcnt_colcnt (v : BitVec 3) (s : State) : (putColcnt v s).colcnt = v := rfl
@[simp] theorem putColcnt_chrcnt (v : BitVec 3) (s : State) : (putColcnt v s).chrcnt = s.chrcnt := rfl
@[simp] theorem putColcnt_cfgDelay (v : BitVec 3) (s : State) : (putColcnt v s).cfgDelay = s.cfgDelay := rfl
@[simp] theorem putColcnt_cfgBright (v : BitVec 3) (s : State) : (putColcnt v s).cfgBright = s.cfgBright := rfl
@[simp] theorem putColcnt_cfgId (v : BitVec 3) (s : State) : (putColcnt v s).cfgId = s.cfgId := rfl
@[simp] theorem putColcnt_hostWords (v : BitVec 3) (s : State) : (putColcnt v s).hostWords = s.hostWords := rfl
@[simp] theorem putColcnt_grain (v : BitVec 3) (s : State) : (putColcnt v s).grain = s.grain := rfl

@[simp] theorem putChrcnt_lines (v : BitVec 2) (s : State) : (putChrcnt v s).lines = s.lines := rfl
@[simp] theorem putChrcnt_trace (v : BitVec 2) (s : State) : (putChrcnt v s).trace = s.trace := rfl
@[simp] theorem putChrcnt_seq (v : BitVec 2) (s : State) : (putChrcnt v s).seq = s.seq := rfl
@[simp] theorem putChrcnt_sr (v : BitVec 2) (s : State) : (putChrcnt v s).sr = s.sr := rfl
@[simp] theorem putChrcnt_bitcnt (v : BitVec 2) (s : State) : (putChrcnt v s).bitcnt = s.bitcnt := rfl
@[simp] theorem putChrcnt_colcnt (v : BitVec 2) (s : State) : (putChrcnt v s).colcnt = s.colcnt := rfl
@[simp] theorem putChrcnt_chrcnt (v : BitVec 2) (s : State) : (putChrcnt v s).chrcnt = v := rfl
@[simp] theorem putChrcnt_cfgDelay (v : BitVec 2) (s : State) : (putChrcnt v s).cfgDelay = s.cfgDelay := rfl
@[simp] theorem putChrcnt_cfgBright (v : BitVec 2) (s : State) : (putChrcnt v s).cfgBright = s.cfgBright := rfl
@[simp] theorem putChrcnt_cfgId (v : BitVec 2) (s : State) : (putChrcnt v s).cfgId = s.cfgId := rfl
@[simp] theorem putChrcnt_hostWords (v : BitVec 2) (s : State) : (putChrcnt v s).hostWords = s.hostWords := rfl
@[simp] theorem putChrcnt_grain (v : BitVec 2) (s : State) : (putChrcnt v s).grain = s.grain := rfl

@[simp] theorem putSeq_lines (v : Seq) (s : State) : (putSeq v s).lines = s.lines := rfl
@[simp] theorem putSeq_trace (v : Seq) (s : State) : (putSeq v s).trace = s.trace := rfl
@[simp] theorem putSeq_seq (v : Seq) (s : State) : (putSeq v s).seq = v := rfl
@[simp] theorem putSeq_sr (v : Seq) (s : State) : (putSeq v s).sr = s.sr := rfl
@[simp] theorem putSeq_bitcnt (v : Seq) (s : State) : (putSeq v s).bitcnt = s.bitcnt := rfl
@[simp] theorem putSeq_colcnt (v : Seq) (s : State) : (putSeq v s).colcnt = s.colcnt := rfl
@[simp] theorem putSeq_chrcnt (v : Seq) (s : State) : (putSeq v s).chrcnt = s.chrcnt := rfl
@[simp] theorem putSeq_cfgDelay (v : Seq) (s : State) : (putSeq v s).cfgDelay = s.cfgDelay := rfl
@[simp] theorem putSeq_cfgBright (v : Seq) (s : State) : (putSeq v s).cfgBright = s.cfgBright := rfl
@[simp] theorem putSeq_cfgId (v : Seq) (s : State) : (putSeq v s).cfgId = s.cfgId := rfl
@[simp] theorem putSeq_hostWords (v : Seq) (s : State) : (putSeq v s).hostWords = s.hostWords := rfl
@[simp] theorem putSeq_grain (v : Seq) (s : State) : (putSeq v s).grain = s.grain := rfl

@[simp] theorem resetWith_lines (d : Nat) (b : Byte) (k : Nat) : (State.resetWith d b k).lines = Lines.unknown := rfl
@[simp] theorem resetWith_trace (d : Nat) (b : Byte) (k : Nat) : (State.resetWith d b k).trace = [] := rfl
@[simp] theorem resetWith_seq (d : Nat) (b : Byte) (k : Nat) : (State.resetWith d b k).seq = .idle := rfl
@[simp] theorem resetWith_sr (d : Nat) (b : Byte) (k : Nat) : (State.resetWith d b k).sr = 0 := rfl
@[simp] theorem resetWith_bitcnt (d : Nat) (b : Byte) (k : Nat) : (State.resetWith d b k).bitcnt = 0 := rfl
@[simp] theorem resetWith_colcnt (d : Nat) (b : Byte) (k : Nat) : (State.resetWith d b k).colcnt = 0 := rfl
@[simp] theorem resetWith_chrcnt (d : Nat) (b : Byte) (k : Nat) : (State.resetWith d b k).chrcnt = 0 := rfl
@[simp] theorem resetWith_cfgDelay (d : Nat) (b : Byte) (k : Nat) : (State.resetWith d b k).cfgDelay = d := rfl
@[simp] theorem resetWith_cfgBright (d : Nat) (b : Byte) (k : Nat) : (State.resetWith d b k).cfgBright = b := rfl
@[simp] theorem resetWith_cfgId (d : Nat) (b : Byte) (k : Nat) : (State.resetWith d b k).cfgId = k := rfl
@[simp] theorem resetWith_hostWords (d : Nat) (b : Byte) (k : Nat) : (State.resetWith d b k).hostWords = [] := rfl
@[simp] theorem resetWith_grain (d : Nat) (b : Byte) (k : Nat) : (State.resetWith d b k).grain = .bigStep := rfl

end Sys2Proof.Machine
end

