-- ==== Sys2Proof/Laws/Ops.lean ====
section
/-! SUPPORT. For each shared operation, once, what it can do: lines and events, pseudocode, the meanings as runs of their
programs, the small step, and the cases of a step. Proofs cite these and do not unfold the operation. -/

namespace Sys2Proof.Machine

/-! ### Lines and events -/

/-- Reading a line after writing one: the value written, or the level it had (R10). -/
theorem levelOf_putLevel (L : Lines) (l m : Line) (v : Level) :
    levelOf (putLevel L l v) m = if m = l then v else levelOf L m := by
  cases l <;> cases m <;> rfl

/-- Lines are equal when every level is. -/
theorem lines_ext {L M : Lines} (h : ∀ l, levelOf L l = levelOf M l) : L = M := by
  obtain ⟨a, b, c, d⟩ := L
  obtain ⟨a', b', c', d'⟩ := M
  have h1 := h .ce
  have h2 := h .din
  have h3 := h .clk
  have h4 := h .rs
  simp only [levelOf] at h1 h2 h3 h4
  rw [h1, h2, h3, h4]

@[simp] theorem applyEvents_nil (L : Lines) : applyEvents L [] = L := rfl

@[simp] theorem applyEvents_cons (L : Lines) (e : Event) (es : List Event) :
    applyEvents L (e :: es) = applyEvents (applyEvent L e) es := rfl

theorem applyEvents_append (L : Lines) (xs ys : List Event) :
    applyEvents L (xs ++ ys) = applyEvents (applyEvents L xs) ys := by
  simp [applyEvents]

/-! ### Pseudocode -/

/-- A line of pseudocode does not read the trace and appends to it. -/
theorem runMicro_trace (m : Micro) (s : State) : runMicro m s =
    { runMicro m { s with trace := [] } with trace := s.trace ++ (runMicro m { s with trace := [] }).trace } := by
  cases m with
  | driveDin => cases h : s.sr.msb <;> simp [runMicro, driveLine, setLine, clearLine, issue, h]
  | _ => simp [runMicro, setLine, clearLine, issueDelay, issue, putSr, putBitcnt, putColcnt, putChrcnt]

/-- Running pseudocode apart from the trace does not read the trace. -/
theorem collect_trace (p : List Micro) (s : State) (x y : List Event) :
    (collect p { s with trace := x }).1 = (collect p s).1 ∧
    { (collect p { s with trace := x }).2 with trace := y } = { (collect p s).2 with trace := y } := by
  cases p <;> exact ⟨rfl, rfl⟩

@[simp] theorem runProg_nil (s : State) : runProg [] s = s := by simp [runProg, collect]

/-- Pseudocode runs line by line (R9). -/
@[simp] theorem runProg_cons (m : Micro) (p : List Micro) (s : State) :
    runProg (m :: p) s = runProg p (runMicro m s) := by
  have h := collect_trace p (runMicro m { s with trace := [] }) (s.trace ++ (runMicro m { s with trace := [] }).trace)
  rw [runMicro_trace m s]
  simp only [runProg, collect, (h []).1, ← List.append_assoc]
  exact ((h _).2).symm

/-- Pseudocode one part after another (R9 `call`). -/
theorem runProg_append (p q : List Micro) (s : State) : runProg (p ++ q) s = runProg q (runProg p s) := by
  induction p generalizing s with
  | nil => simp
  | cons m p ih => simp [ih]

/-- A line of pseudocode that issues an event issues exactly one and writes nothing else; the others write one working
register. -/
theorem runMicro_cases (m : Micro) (s : State) :
    (issues m = true ∧ ∃ e, runMicro m s = issue e s) ∨
    (issues m = false ∧ ((∃ v, runMicro m s = putSr v s) ∨ (∃ v, runMicro m s = putBitcnt v s) ∨
      (∃ v, runMicro m s = putColcnt v s) ∨ (∃ v, runMicro m s = putChrcnt v s))) := by
  cases m with
  | set l => exact .inl ⟨rfl, _, rfl⟩
  | clear l => exact .inl ⟨rfl, _, rfl⟩
  | delay => exact .inl ⟨rfl, _, rfl⟩
  | driveDin =>
    refine .inl ⟨rfl, if s.sr.msb then .set .din else .clear .din, ?_⟩
    simp only [runMicro, driveLine, setLine, clearLine]
    split <;> rfl
  | loadSr b => exact .inr ⟨rfl, .inl ⟨_, rfl⟩⟩
  | shiftSr => exact .inr ⟨rfl, .inl ⟨_, rfl⟩⟩
  | bitcnt v => exact .inr ⟨rfl, .inr (.inl ⟨_, rfl⟩)⟩
  | colcnt v => exact .inr ⟨rfl, .inr (.inr (.inl ⟨_, rfl⟩))⟩
  | chrcnt v => exact .inr ⟨rfl, .inr (.inr (.inr ⟨_, rfl⟩))⟩

theorem SameControl.rfl' (s : State) : SameControl s s := ⟨⟨rfl, rfl, rfl⟩, rfl, rfl, rfl⟩

theorem SameControl.trans' {s t u : State} (h : SameControl s t) (k : SameControl t u) : SameControl s u := by
  obtain ⟨⟨a, b, c⟩, d, e, f⟩ := h
  obtain ⟨⟨a', b', c'⟩, d', e', f'⟩ := k
  exact ⟨⟨a'.trans a, b'.trans b, c'.trans c⟩, d'.trans d, e'.trans e, f'.trans f⟩

theorem runMicro_control (m : Micro) (s : State) : SameControl s (runMicro m s) := by
  rcases runMicro_cases m s with ⟨-, e, h⟩ | ⟨-, ⟨v, h⟩ | ⟨v, h⟩ | ⟨v, h⟩ | ⟨v, h⟩⟩ <;> rw [h] <;>
    exact SameControl.rfl' s

/-- Pseudocode writes the lines, the trace and the working registers only. -/
theorem runProg_control (p : List Micro) (s : State) : SameControl s (runProg p s) := by
  induction p generalizing s with
  | nil => rw [runProg_nil]; exact SameControl.rfl' s
  | cons m p ih => rw [runProg_cons]; exact (runMicro_control m s).trans' (ih _)

/-- Pseudocode appends events to the trace, and the lines follow them (R10, R11). -/
theorem runProg_appends (p : List Micro) (s : State) :
    ∃ es, (runProg p s).trace = s.trace ++ es ∧ (runProg p s).lines = applyEvents s.lines es ∧
      es.length = p.countP issues := by
  induction p generalizing s with
  | nil => exact ⟨[], by simp⟩
  | cons m p ih =>
    obtain ⟨es, h1, h2, h3⟩ := ih (runMicro m s)
    rcases runMicro_cases m s with ⟨hi, e, h⟩ | ⟨hi, ⟨v, h⟩ | ⟨v, h⟩ | ⟨v, h⟩ | ⟨v, h⟩⟩
    · refine ⟨e :: es, ?_, ?_, ?_⟩
      · rw [runProg_cons, h1, h]; simp
      · rw [runProg_cons, h2, h]; simp
      · rw [List.countP_cons_of_pos hi, List.length_cons, h3]
    all_goals
      refine ⟨es, ?_, ?_, ?_⟩
      · rw [runProg_cons, h1, h]; simp
      · rw [runProg_cons, h2, h]; simp
      · rw [List.countP_cons_of_neg (by simp [hi]), h3]

/-- The lines of pseudocode between two events issue nothing. -/
theorem workBefore_issues (p : List Micro) (k : Nat) : ∀ m ∈ workBefore p k, issues m = false := by
  induction p generalizing k with
  | nil => simp [workBefore]
  | cons m p ih =>
    intro x hx
    cases k with
    | zero =>
      simp only [workBefore] at hx
      split at hx
      · simp at hx
      · rename_i hm
        rcases List.mem_cons.mp hx with rfl | hx
        · simpa using hm
        · exact ih 0 x hx
    | succ k =>
      simp only [workBefore] at hx
      split at hx
      · exact ih k x hx
      · exact ih (k + 1) x hx

/-- Pseudocode that issues nothing leaves the lines and the trace alone. -/
theorem runProg_silent {p : List Micro} (h : ∀ m ∈ p, issues m = false) (s : State) :
    (runProg p s).lines = s.lines ∧ (runProg p s).trace = s.trace := by
  induction p generalizing s with
  | nil => rw [runProg_nil]; exact ⟨rfl, rfl⟩
  | cons m p ih =>
    have hp := ih (fun x hx => h x (List.mem_cons_of_mem _ hx)) (runMicro m s)
    have hm := h m (List.mem_cons_self ..)
    rcases runMicro_cases m s with ⟨hi, -⟩ | ⟨-, ⟨v, e⟩ | ⟨v, e⟩ | ⟨v, e⟩ | ⟨v, e⟩⟩
    · rw [hm] at hi; cases hi
    all_goals rw [runProg_cons, hp.1, hp.2, e]; exact ⟨rfl, rfl⟩

/-! ### Meanings, the small step and the step -/

/-- Every meaning is the run of its command's pseudocode. -/
theorem exec_eq_program (i : Instr) (s : State) : exec i s = .next (runProg (program s.cfgBright i) s) := by
  cases i <;> rfl

/-- A small step within bounds issues the event `Events(cmd)[k]` after working registers only have changed (R21). -/
theorem smallStep_within {i : Instr} {k : Nat} {s : State} {e : Event} (h : (eventsIn s i)[k]? = some e) :
    smallStep i k s = .next (putSeq (seqAfter i k (eventsIn s i).length)
      (issue e (runProg (workBefore (program s.cfgBright i) k) s))) := by
  simp only [smallStep, h]

/-- A small step out of bounds faults, and only such a one (R20). -/
theorem smallStep_fault_iff (i : Instr) (k : Nat) (s : State) (r : Fault) :
    smallStep i k s = .fault r ↔ (eventsIn s i).length ≤ k := by
  cases h : (eventsIn s i)[k]? with
  | none =>
    cases r
    simp only [smallStep, h, true_iff]
    exact List.getElem?_eq_none_iff.mp h
  | some e =>
    have := (List.getElem?_eq_some_iff.mp h).1
    simp [smallStep, h]; omega

/-- What a step that answers a next state has done: issued one event of a command in progress, waited, run a command to
its end, or accepted one (R21, R91). -/
theorem step_cases {s t : State} (h : step s = .next t) :
    (∃ i k e, s.seq = .busy i k ∧ (eventsIn s i)[k]? = some e ∧
      t = putSeq (seqAfter i k (eventsIn s i).length)
        (issue e (runProg (workBefore (program s.cfgBright i) k) s))) ∨
    (s.seq = .idle ∧ s.hostWords = [] ∧ t = s) ∨
    (∃ w ws i, s.seq = .idle ∧ s.hostWords = w :: ws ∧ decode w = .instr i ∧ s.grain = .bigStep ∧
      t = runProg (program s.cfgBright i) { s with hostWords := ws }) ∨
    (∃ w ws i, s.seq = .idle ∧ s.hostWords = w :: ws ∧ decode w = .instr i ∧ s.grain = .smallStep ∧
      t = putSeq (.busy i 0) { s with hostWords := ws }) := by
  unfold step at h
  split at h
  · rename_i i k hs
    cases he : (eventsIn s i)[k]? with
    | none => simp [smallStep, he] at h
    | some e =>
      rw [smallStep_within he] at h
      cases h
      exact .inl ⟨i, k, e, hs, he, rfl⟩
  · rename_i hs
    split at h
    · rename_i ht
      cases h
      cases hw : s.hostWords with
      | nil => exact .inr (.inl ⟨hs, rfl, rfl⟩)
      | cons w ws => simp [takeCommand, hw] at ht
    · rename_i w u ht
      cases hw : s.hostWords with
      | nil => simp [takeCommand, hw] at ht
      | cons w' ws =>
        simp only [takeCommand, hw, Option.some.injEq, Prod.mk.injEq] at ht
        obtain ⟨rfl, rfl⟩ := ht
        split at h
        · cases h
        · rename_i i hd
          split at h
          · rename_i hg
            rw [exec_eq_program] at h
            cases h
            exact .inr (.inr (.inl ⟨w', ws, i, hs, rfl, hd, hg, rfl⟩))
          · rename_i hg
            cases h
            exact .inr (.inr (.inr ⟨w', ws, i, hs, rfl, hd, hg, rfl⟩))

/-! ### Runs -/

/-- A run of one step more than `n`: one step, then `n`. -/
theorem run_succ_of_step {s t : State} (h : step s = .next t) (n : Nat) :
    Host.Core.run Sys2Proof.core (n + 1) s = Host.Core.run Sys2Proof.core n t := by
  have hc : Sys2Proof.core.step s = .next t := h
  simp only [Host.Core.run, hc]

/-- A run that answers a next state after `n + 1` steps begins with a step that does. -/
theorem step_of_run_succ {s t : State} {n : Nat} (h : Host.Core.run Sys2Proof.core (n + 1) s = .next t) :
    ∃ u, step s = .next u ∧ Host.Core.run Sys2Proof.core n u = .next t := by
  cases hs : step s with
  | next u => exact ⟨u, rfl, (run_succ_of_step hs n).symm.trans h⟩
  | fault r =>
    have hc : Sys2Proof.core.step s = .fault r := hs
    simp only [Host.Core.run, hc] at h
    cases h
  | refused r =>
    have hc : Sys2Proof.core.step s = .refused r := hs
    simp only [Host.Core.run, hc] at h
    cases h

theorem reaches_refl (s : State) : Reaches s s := ⟨0, rfl⟩

theorem reaches_of_step {s t u : State} (h : step s = .next t) (k : Reaches t u) : Reaches s u := by
  obtain ⟨n, hn⟩ := k
  exact ⟨n + 1, (run_succ_of_step h n).trans hn⟩

/-- Runs compose. -/
theorem reaches_trans {s t u : State} (h : Reaches s t) (k : Reaches t u) : Reaches s u := by
  obtain ⟨n, hn⟩ := h
  induction n generalizing s with
  | zero => cases hn; exact k
  | succ n ih =>
    obtain ⟨v, hv, hr⟩ := step_of_run_succ hn
    exact reaches_of_step hv (ih hr)

/-- What every step of a run keeps holds at its end: the induction over a run, once. -/
theorem reaches_induction {P : State → Prop} (keeps : ∀ s t, P s → step s = .next t → P t) {s t : State} (h : P s)
    (r : Reaches s t) : P t := by
  obtain ⟨n, hn⟩ := r
  induction n generalizing s with
  | zero => cases hn; exact h
  | succ n ih =>
    obtain ⟨u, hu, hr⟩ := step_of_run_succ hn
    exact ih (keeps s u h hu) hr

/-- Where a command ends: at its last event, or at the one step that runs it whole (R21). -/
theorem commandEnded_cases {s : State} {i : Instr} (h : commandEnded s = some i) :
    (∃ k, s.seq = .busy i k ∧ k + 1 = (eventsIn s i).length) ∨
    (∃ w ws, s.seq = .idle ∧ s.grain = .bigStep ∧ s.hostWords = w :: ws ∧ decode w = .instr i) := by
  unfold commandEnded at h
  split at h
  · rename_i j k hs
    split at h
    · cases h
      exact .inl ⟨k, hs, ‹_›⟩
    · cases h
  · rename_i hs
    split at h
    · rename_i w u ht hg
      split at h
      · rename_i j hd
        cases h
        cases hw : s.hostWords with
        | nil => simp [takeCommand, hw] at ht
        | cons w' ws =>
          simp only [takeCommand, hw, Option.some.injEq, Prod.mk.injEq] at ht
          obtain ⟨rfl, -⟩ := ht
          exact .inr ⟨w', ws, hs, hg, rfl, hd⟩
      · cases h
    · cases h

/-- What the clamp can give. -/
theorem clamp_cases (v : Byte) : (v.toNat ≤ 15 ∧ clamp v = v) ∨ (15 < v.toNat ∧ clamp v = 15) := by
  by_cases h : v.toNat ≤ 15
  · exact .inl ⟨h, by simp [clamp, Config.brightnessMax, h]⟩
  · exact .inr ⟨by omega, by simp [clamp, Config.brightnessMax, h]⟩

/-- What the glyph ROM can answer: the space's zeros, an entry of the unknown font, or the 'X' entry (R26). -/
theorem glyph_cases (ch : Byte) :
    (isMapped ch = true ∧ glyph ch = tableEntry ch) ∨ (isMapped ch = false ∧ glyph ch = tableEntry Config.unknownChar) := by
  cases h : isMapped ch
  · exact .inr ⟨rfl, by simp [glyph, h]⟩
  · exact .inl ⟨rfl, by simp [glyph, h]⟩

end Sys2Proof.Machine
end

