-- ==== Sys2Proof/Laws/PerInstr.lean ====
section
/-! SUPPORT. The per-instruction family `EncodeFields`: the encoded word of a command carries the opcode of its row in the
opcode map and zero in the must-be-zero bits of its format (30_encoding.md rules R41, R42, R45). -/

namespace Sys2Proof.Laws.EncodeFields

/-- The word of `i` has the row's opcode and no padding bit set. -/
def Statement (i : Instr) : Prop := opcodeField (encode i) = i.opcode ∧ paddingZero i.format (encode i) = true

theorem generateClock : Statement .generateClock :=
  ⟨by simp [encode], by simp [encode, Instr.format, paddingZero_n]⟩

theorem write (b : Byte) : Statement (.write b) := ⟨by simp [encode], by simp [encode, Instr.format, paddingZero_b]⟩

theorem writeArray (b0 b1 b2 b3 b4 : Byte) : Statement (.writeArray b0 b1 b2 b3 b4) := ⟨by simp [encode], rfl⟩

theorem writeChar (ch : Byte) : Statement (.writeChar ch) :=
  ⟨by simp [encode], by simp [encode, Instr.format, paddingZero_b]⟩

theorem writeReg0 (v : Byte) : Statement (.writeReg0 v) :=
  ⟨by simp [encode], by simp [encode, Instr.format, paddingZero_b]⟩

theorem writeText (c0 c1 c2 c3 : Byte) : Statement (.writeText c0 c1 c2 c3) :=
  ⟨by simp [encode], by simp [encode, Instr.format, paddingZero_t]⟩

theorem initFraming : Statement .initFraming := ⟨by simp [encode], by simp [encode, Instr.format, paddingZero_n]⟩

theorem init : Statement .init := ⟨by simp [encode], by simp [encode, Instr.format, paddingZero_n]⟩

theorem updateBrightness (value : Byte) : Statement (.updateBrightness value) :=
  ⟨by simp [encode], by simp [encode, Instr.format, paddingZero_b]⟩

theorem updateText (c0 c1 c2 c3 : Byte) : Statement (.updateText c0 c1 c2 c3) :=
  ⟨by simp [encode], by simp [encode, Instr.format, paddingZero_t]⟩

end Sys2Proof.Laws.EncodeFields
end

