-- ==== Sys2Proof/Tests/Slice0.lean ====
section
/-! SUPPORT. Tests of the model against the worked vectors of 95_test_vectors.md (V and P numbers), and for each statement
with hypotheses a witness that meets them all. -/

namespace Sys2Proof.Tests

open Sys2Proof Sys2Proof.Machine

/-- A block out of reset with `CFG_DELAY = 3`, `CFG_BRIGHT = 20` (the source's scenario A7), `CFG_ID = 0`. -/
def fresh : State := State.resetWith 3 20 0

/-- The same with the lines `(CE, DIN, CLK, RS)`. -/
def withLines (a b c d : Level) : State := { fresh with lines := ⟨a, b, c, d⟩ }

/-- The same with words at the port. -/
def withWords (ws : List CmdWord) (g : Grain) : State := { fresh with hostWords := ws, grain := g }

/-- A command in progress. -/
def inProgress (i : Instr) (k : Nat) : State := { fresh with seq := .busy i k }

/-- The outcome is a next state with the property. -/
def onNext (o : Host.Outcome State Fault Refusal) (p : State → Bool) : Bool :=
  match o with
  | .next t => p t
  | .fault _ => false
  | .refused _ => false

/-- The outcome is the refusal. -/
def refusedAs (o : Host.Outcome State Fault Refusal) (r : Refusal) : Bool :=
  match o with
  | .next _ => false
  | .fault _ => false
  | .refused q => q == r

/-! ### Well-formedness (R43) -/

/-- The check's ill-formed term: a primitive in a block that does not expose the primitives. -/
theorem test_hidden_primitive_is_ill_formed : Instr.wfWith false (.write 0xB0) = false := by decide

theorem test_public_operation_is_well_formed : Instr.wfWith false (.updateText 0 1 2 3) = true := by decide

theorem test_every_row_is_exposed : Instr.wf .generateClock = true ∧ Instr.wf .init = true := by decide

/-! ### Decoding: words written out bit by bit from R41 and R42 (opcode, p0, p1, p2, p3, p4) -/

theorem test_decode_generateClock :
    decode 0b00000001_00000000_00000000_00000000_00000000_00000000 = .instr .generateClock := by decide

theorem test_decode_write :
    decode 0b00000010_10110000_00000000_00000000_00000000_00000000 = .instr (.write 0b10110000) := by decide

theorem test_decode_writeArray :
    decode 0b00000011_00000001_00000010_00000100_00001000_10000000 =
      .instr (.writeArray 0b00000001 0b00000010 0b00000100 0b00001000 0b10000000) := by decide

theorem test_decode_writeChar :
    decode 0b00000100_01011000_00000000_00000000_00000000_00000000 = .instr (.writeChar 0b01011000) := by decide

theorem test_decode_writeReg0 :
    decode 0b00000101_01001111_00000000_00000000_00000000_00000000 = .instr (.writeReg0 0b01001111) := by decide

theorem test_decode_writeText :
    decode 0b00000110_01010100_01000101_01010011_01010100_00000000 =
      .instr (.writeText 0b01010100 0b01000101 0b01010011 0b01010100) := by decide

theorem test_decode_initFraming :
    decode 0b00000111_00000000_00000000_00000000_00000000_00000000 = .instr .initFraming := by decide

theorem test_decode_init :
    decode 0b00001000_00000000_00000000_00000000_00000000_00000000 = .instr .init := by decide

theorem test_decode_updateBrightness :
    decode 0b00001001_00010100_00000000_00000000_00000000_00000000 = .instr (.updateBrightness 20) := by decide

theorem test_decode_updateText :
    decode 0b00001010_01000001_01100010_00000000_00100000_00000000 =
      .instr (.updateText 0b01000001 0b01100010 0b00000000 0b00100000) := by decide

/-- V23: reserved words. -/
theorem test_decode_reserved :
    decode 0x000000000000 = .reserved (.opcode 0x00) ∧ decode 0x0B0000000000 = .reserved (.opcode 0x0B) ∧
    decode 0xFF0000000000 = .reserved (.opcode 0xFF) ∧ decode 0x010000000001 = .reserved (.padding 0x01) ∧
    decode 0x02B000000100 = .reserved (.padding 0x02) ∧ decode 0x045858000000 = .reserved (.padding 0x04) ∧
    decode 0x054F00000001 = .reserved (.padding 0x05) ∧ decode 0x065445535455 = .reserved (.padding 0x06) ∧
    decode 0x080F00000000 = .reserved (.padding 0x08) ∧ decode 0x091400000014 = .reserved (.padding 0x09) ∧
    decode 0x0A5445535421 = .reserved (.padding 0x0A) := by decide

/-- The opcode table's numbering: bit 0 is bit 0 of `cmd[47:0]`. -/
theorem test_decodeTableWord : decodeTableWord 48 0x02B000000000 = some (.write 0xB0) := by decide

theorem test_withFetchWord_runs :
    onNext (step (fresh.withFetchWord 48 0x010000000000)) (fun t => t.trace.length == 5) = true := by decide

/-! ### The operations -/

/-- V1, second row: from `(1, 1, 1, 0)`. -/
theorem test_generateClock_from_high :
    onNext (exec .generateClock (withLines .high .high .high .low))
      (fun t => t.lines == ⟨.high, .high, .low, .low⟩ && t.trace.length == 5) = true := by decide

/-- V1, first row: one rising edge. -/
theorem test_generateClock_sample :
    sampled (events 3 20 .generateClock) ⟨.high, .low, .low, .low⟩ = [⟨.high, .low, .low⟩] := by decide

/-- V2: the first twelve events of `WRITE 0xB0` (R52). -/
theorem test_write_first_events :
    onNext (exec (.write 0xB0) fresh) (fun t => t.trace.take 12 ==
      [.set .din, .clear .clk, .delay 3, .set .clk, .delay 3, .clear .clk,
       .clear .din, .clear .clk, .delay 3, .set .clk, .delay 3, .clear .clk]) = true := by decide +kernel

/-- V3: `WRITE 0x01` ends with `DIN` low although its last bit is 1; 49 events; `SR` is zero. -/
theorem test_write_last_bit :
    onNext (exec (.write 0x01) fresh)
      (fun t => t.lines == ⟨.unknown, .low, .low, .unknown⟩ && t.trace.length == 49 && t.sr == 0 &&
        t.trace.drop 42 == [.set .din, .clear .clk, .delay 3, .set .clk, .delay 3, .clear .clk, .clear .din]) = true := by
  decide +kernel

/-- V7: the first bit is bit 7 of the first byte, the last is bit 0 of the fifth. -/
theorem test_writeArray_bits :
    (sampled (events 3 20 (.writeArray 0x80 0 0 0 0x01)) idleBus).map (fun x => x.din) =
      [.high] ++ List.replicate 38 .low ++ [.high] := by decide +kernel

/-- V8: 40 `Set(DIN)` and 5 closing `Clear(DIN)`. -/
theorem test_writeArray_ones :
    onNext (exec (.writeArray 0xFF 0xFF 0xFF 0xFF 0xFF) fresh)
      (fun t => t.trace.count (.set .din) == 40 && t.trace.count (.clear .din) == 5) = true := by decide +kernel

/-- V12: the space has 45 `Clear(DIN)` and no `Set(DIN)`. -/
theorem test_writeChar_space :
    onNext (exec (.writeChar 0x20) fresh)
      (fun t => t.trace.count (.clear .din) == 45 && t.trace.count (.set .din) == 0) = true := by decide +kernel

/-- V10: 0x80 and ',' are unmapped; R28: MAPPED48 has 48 members. -/
theorem test_mapped48 :
    isMapped48 0x80 = false ∧ isMapped48 0x2C = false ∧ isMapped48 0x60 = false ∧
    ((List.range 256).filter fun n => isMapped48 (BitVec.ofNat 8 n)).length = 48 := by decide +kernel

/-- V4: `WRITE_REG0 0x4F` opens and closes as listed, with 58 events. -/
theorem test_writeReg0_frame_events :
    onNext (exec (.writeReg0 0x4F) fresh)
      (fun t => t.trace.take 4 == [.set .rs, .delay 3, .clear .ce, .delay 3] && t.trace.length == 58 &&
        t.trace.drop 52 == [.clear .din, .set .ce, .delay 3, .clear .clk, .delay 3, .clear .rs] &&
        t.lines == idleBus) = true := by decide +kernel

/-- V4: its one frame. -/
theorem test_writeReg0_frame :
    frames (events 3 20 (.writeReg0 0x4F)) Lines.unknown =
      [⟨some .registerSelect, [.low, .high, .low, .low, .high, .high, .high, .high]⟩] := by decide +kernel

/-- V15: four spaces: 989 events, no `Set(DIN)`, closed by `Clear(DIN)`. -/
theorem test_writeText_spaces :
    onNext (exec (.writeText 0x20 0x20 0x20 0x20) fresh)
      (fun t => t.trace.length == 989 && t.trace.count (.set .din) == 0 && t.lines == idleBus &&
        t.trace.drop 984 == [.set .ce, .delay 3, .clear .clk, .delay 3, .clear .din]) = true := by decide +kernel

/-- V19: from `(0, 1, 1, 1)` to `(1, 0, 0, 1)`. -/
theorem test_initFraming_lines :
    onNext (exec .initFraming (withLines .low .high .high .high))
      (fun t => t.lines == ⟨.high, .low, .low, .high⟩ && t.trace == [.set .ce, .clear .clk, .clear .din]) = true := by
  decide

/-- P1: 1050 events, 344 delays, idle bus state, `CFG_BRIGHT` not clamped in place. -/
theorem test_init_counts :
    onNext (exec .init fresh)
      (fun t => t.trace.length == 1050 && delayCount t.trace == 344 && t.lines == idleBus && t.cfgBright == 20) = true := by
  decide +kernel

/-- P1: the two frames. -/
theorem test_init_frames :
    frames (events 3 20 .init) Lines.unknown =
      [⟨some .normal, List.replicate 160 .low⟩,
       ⟨some .registerSelect, [.low, .high, .low, .low, .high, .high, .high, .high]⟩] := by decide +kernel

/-- V17: the clamp at its edges. -/
theorem test_clamp_edges :
    clamp 0 = 0 ∧ clamp 15 = 15 ∧ clamp 16 = 15 ∧ clamp 20 = 15 ∧ clamp 255 = 15 ∧ brightnessByte 7 = 0x47 ∧
    brightnessByte 20 = 0x4F := by decide

/-- V18: `UPDATE_BRIGHTNESS 200` sends 0x4F and leaves `CFG_BRIGHT`. -/
theorem test_updateBrightness_clamps :
    onNext (exec (.updateBrightness 200) fresh)
      (fun t => frames t.trace Lines.unknown ==
          [⟨some .registerSelect, [.low, .high, .low, .low, .high, .high, .high, .high]⟩] && t.cfgBright == 20) = true := by
  decide +kernel

/-- V18: `UPDATE_BRIGHTNESS 0` sends 0x40. -/
theorem test_updateBrightness_zero :
    frames (events 3 20 (.updateBrightness 0)) idleBus =
      [⟨some .registerSelect, [.low, .high, .low, .low, .low, .low, .low, .low]⟩] := by decide +kernel

/-- R70: 989 events; opened with `Clear(RS)`. -/
theorem test_updateText_opens :
    onNext (exec (.updateText 0x20 0x20 0x20 0x20) fresh)
      (fun t => t.trace.length == 989 && t.trace.take 4 == [.clear .rs, .delay 3, .clear .ce, .delay 3]) = true := by
  decide +kernel

/-- R6: the loops have the lengths the constants name. -/
theorem test_loop_lengths :
    bitLoop.length = Config.bitsPerColumn ∧ (colLoop ⟨0, 0, 0, 0, 0⟩).length = Config.numColumns ∧
    (chrLoop 0 0 0 0).length = Config.numDigits := by decide

/-- R22: busy is `SEQ /= IDLE`. -/
theorem test_isBusy : isBusy fresh = false ∧ isBusy (inProgress .init 7) = true := by decide

/-- R12: the addressing state. -/
theorem test_addressing :
    addressing idleBus = some .normal ∧ addressing ⟨.low, .low, .low, .high⟩ = some .registerSelect ∧
    addressing Lines.unknown = none := by decide

/-- R20, R21: the last event of a command returns `SEQ` to `IDLE`; a count out of bound is no state. -/
theorem test_smallStep_last :
    onNext (step (inProgress .initFraming 2)) (fun t => t.seq == .idle && t.trace == [.clear .din]) = true ∧
    onNext (step (inProgress .initFraming 3)) (fun _ => true) = false := by decide

/-- R48: the examples of the rule. -/
theorem test_text_examples :
    parseLine "GENERATE_CLOCK".toList = .command .generateClock ∧
    parseLine "WRITE 0xB0".toList = .command (.write 0xB0) ∧
    parseLine "WRITE_ARRAY 0x01, 0x02, 0x03, 0x04, 0x05".toList = .command (.writeArray 1 2 3 4 5) ∧
    parseLine "WRITE_CHAR 'X'".toList = .command (.writeChar 0x58) ∧
    parseLine "WRITE_REG0 0x4F".toList = .command (.writeReg0 0x4F) ∧
    parseLine "INIT_FRAMING".toList = .command .initFraming ∧
    parseLine "INIT ; blank display".toList = .command .init ∧
    parseLine "UPDATE_BRIGHTNESS 20".toList = .command (.updateBrightness 20) ∧
    parseLine "UPDATE_TEXT 'T','E','S','T'".toList = .command (.updateText 0x54 0x45 0x53 0x54) := by decide

/-- R48, R46: a string operand has exactly four characters; a byte operand is not written as a character. -/
theorem test_text_strings :
    parseLine (['W', 'R', 'I', 'T', 'E', '_', 'T', 'E', 'X', 'T', ' ', dquote, 'T', 'E', 'S', 'T', dquote]) =
      .command (.writeText 0x54 0x45 0x53 0x54) ∧
    parseLine (['W', 'R', 'I', 'T', 'E', '_', 'T', 'E', 'X', 'T', ' ', dquote, 'H', 'I', dquote]) = .malformed ∧
    parseLine "WRITE 'X'".toList = .malformed ∧ parseLine "UPDATE_BRIGHTNESS 256".toList = .malformed ∧
    parseLine "; INIT".toList = .blank := by decide

/-! ### Witnesses: a state and operands that meet the hypotheses of each statement that has some -/

theorem witness_EncodeDecodeIsIdentity : decode 0x02B000000000 = .instr (.write 0xB0) := by decide

theorem witness_ReservedWordsAreRefused :
    (withWords [0x0B0000000000] .bigStep).seq = .idle ∧
    (withWords [0x0B0000000000] .bigStep).hostWords = 0x0B0000000000 :: [] ∧
    decode 0x0B0000000000 = .reserved (.opcode 0x0B) ∧
    refusedAs (step (withWords [0x0B0000000000] .bigStep)) (.reservedWord (.opcode 0x0B)) = true := by decide

theorem witness_HiddenPrimitivesAreReserved :
    decodeWith false 0x010000000000 = .reserved (.hidden 0x01) ∧ decodeWith false 0x070000000000 = .reserved (.hidden 0x07) ∧
    decodeWith false 0x080000000000 = .instr .init ∧ decodeWith false 0x000000000000 = decode 0x000000000000 := by decide

theorem witness_StepRunsDecodedCommand :
    (withWords [0x070000000000, 5] .bigStep).seq = .idle ∧ (withWords [0x070000000000, 5] .bigStep).grain = .bigStep ∧
    (withWords [0x070000000000, 5] .bigStep).hostWords = 0x070000000000 :: [5] ∧
    decode 0x070000000000 = .instr .initFraming := by decide

theorem witness_StepAcceptsCommand :
    (withWords [0x070000000000] .smallStep).seq = .idle ∧ (withWords [0x070000000000] .smallStep).grain = .smallStep ∧
    (withWords [0x070000000000] .smallStep).hostWords = 0x070000000000 :: [] ∧
    decode 0x070000000000 = .instr .initFraming := by decide

theorem witness_BusyStepIssuesOneEvent :
    (inProgress (.write 0xB0) 6).seq = .busy (.write 0xB0) 6 ∧
    (eventsIn (inProgress (.write 0xB0) 6) (.write 0xB0))[6]? = some (.clear .din) := by decide

/-- The last event of a command, where `SEQ` returns to `IDLE`. -/
theorem witness_BusyStepIssuesOneEvent_last :
    (inProgress (.write 0xB0) 48).seq = .busy (.write 0xB0) 48 ∧
    (eventsIn (inProgress (.write 0xB0) 48) (.write 0xB0))[48]? = some (.clear .din) ∧
    (eventsIn (inProgress (.write 0xB0) 48) (.write 0xB0)).length = 48 + 1 := by decide +kernel

theorem witness_NothingHappensUntilACommand : fresh.seq = .idle ∧ fresh.hostWords = [] := by decide

theorem witness_BothStepSemanticsAgree :
    (withWords [0x01000000_0000, 9] .smallStep).seq = .idle ∧ (withWords [0x010000000000, 9] .smallStep).grain = .smallStep ∧
    (withWords [0x010000000000, 9] .smallStep).hostWords = 0x010000000000 :: [9] ∧
    decode 0x010000000000 = .instr .generateClock := by decide

theorem witness_CommandInProgressEnds :
    (inProgress .initFraming 1).seq = .busy .initFraming 1 ∧
    1 < (eventsIn (inProgress .initFraming 1) .initFraming).length := by decide

theorem witness_RunIsConcatenation :
    (withWords [0x070000000000, 0x010000000000] .bigStep).seq = .idle ∧
    (withWords [0x070000000000, 0x010000000000] .bigStep).grain = .bigStep ∧
    (withWords [0x070000000000, 0x010000000000] .bigStep).hostWords = [Instr.initFraming, .generateClock].map encode := by
  decide

/-- For `StepKeepsInvariant` and `DutifulRunsNeverStop`: a state of the invariant with a command at the port. -/
theorem witness_Inv : Inv { State.resetWith 0 20 0 with hostWords := [0x070000000000] } := by
  refine ⟨trivial, rfl, ⟨Nat.two_pow_pos _, Nat.two_pow_pos _⟩, ?_⟩
  show Quiet Lines.unknown
  unfold Quiet Lines.unknown
  decide

theorem witness_StepKeepsInvariant :
    onNext (step { State.resetWith 0 20 0 with hostWords := [0x070000000000] }) (fun t => t.trace.length == 3) = true := by
  decide

theorem witness_DutifulRunsNeverStop :
    HostKeepsDuties { State.resetWith 0 20 0 with hostWords := [0x070000000000] } := by
  intro w hw
  refine ⟨.initFraming, ?_⟩
  have : w = 0x070000000000 := by simpa using hw
  rw [this]
  decide

theorem witness_RefusalOnlyOfReservedWord :
    refusedAs (step (withWords [0x080F00000000] .smallStep)) (.reservedWord (.padding 0x08)) = true := by decide

/-- For `TraceIsAppendOnly`, `UnknownLevelNeverReturns` (the line `RS`) and `NoStepWritesConfiguration`: a step that answers a
next state, in which `RS` is still `U`. -/
theorem witness_step_to_next_state :
    onNext (step (withWords [0x070000000000] .bigStep))
      (fun t => t.lines.rs == .unknown && t.trace == [.set .ce, .clear .clk, .clear .din]) = true := by decide

theorem witness_EveryDelayIsTheConfiguredOne : Event.delay 3 ∈ eventsIn fresh .generateClock := by decide

/-- For `CommandsIgnoreLinesAndHistory` and `WriteCharProperties`: two states that differ in `SEQ`. -/
theorem witness_SameForCommands : SameForCommands fresh (inProgress (.write 1) 4) := by
  unfold SameForCommands
  decide

theorem witness_ShiftRegisterAfterRounds :
    (runProg (.loadSr 0xB1 :: (bitLoop.take 7).flatMap writeBitProg) fresh).sr = 0x80 ∧
    (runProg (.loadSr 0xB1 :: (bitLoop.take 8).flatMap writeBitProg) fresh).sr = 0 := by decide +kernel

theorem witness_GlyphKnownEntries :
    ¬ (0x41 ≤ (0x61 : Byte).toNat ∧ (0x61 : Byte).toNat ≤ 0x5A) ∧
    ¬ (0x30 ≤ (0x61 : Byte).toNat ∧ (0x61 : Byte).toNat ≤ 0x39) ∧
    (0x61 : Byte) ∉ ([0x20, 0x3D, 0x2E, 0x3A, 0x3E, 0x3C, 0x2F, 0x21, 0x7C, 0x2D, 0x2B, 0x23] : List Byte) ∧
    (0x61 : Byte) ≠ 0x60 := by decide

/-- The two clauses of `WriteCharResult` that have hypotheses: an unmapped code, and the space. -/
theorem witness_WriteCharResult : isMapped48 0xFF = false ∧ (0xFF : Byte) ≠ 0x60 ∧ isMapped48 0x20 = true := by decide

theorem witness_WriteCharProperties : isMapped48 0x61 = false ∧ (0x61 : Byte) ≠ 0x60 := by decide

theorem witness_FramedWritersOnTheWire : Lines.unknown.ce ≠ .low ∧ idleBus.ce ≠ .low := by decide

theorem witness_PrimitivesDoNoFraming :
    Event.set .clk ∈ eventsIn fresh .generateClock ∧ Event.clear .din ∈ eventsIn fresh .initFraming := by decide

theorem witness_ClampSaturates : (15 : Byte).toNat ≤ 15 := by decide

theorem witness_PublicOperationsEndIdle :
    Instr.isPublic .init = true ∧ Instr.isPublic (.updateBrightness 3) = true ∧ Instr.isPublic (.updateText 1 2 3 4) = true := by
  decide

/-- `INIT` at the port of an idle block, in either step semantics. -/
theorem witness_InitEstablishesPremises :
    State.reset.seq = .idle ∧ decode 0x080000000000 = .instr .init ∧
    (withWords [0x080000000000, 5] .bigStep).seq = .idle ∧
    (withWords [0x080000000000, 5] .bigStep).hostWords = 0x080000000000 :: [5] ∧
    (withWords [0x080000000000, 5] .smallStep).seq = .idle ∧
    (withWords [0x080000000000, 5] .smallStep).hostWords = 0x080000000000 :: [5] := ⟨rfl, by decide⟩

/-- For `InitDoneMeansInitCompleted`: a run that has completed an `INIT`, with a further step in it. -/
theorem witness_InitDoneMeansInitCompleted :
    ∃ t u, InitDone (withWords [0x080000000000] .bigStep) t ∧ step t = .next u := by
  obtain ⟨-, hs, hw, -⟩ := runProg_control (program 20 .init) fresh
  refine ⟨runProg (program 20 .init) fresh, runProg (program 20 .init) fresh,
    ⟨rfl, withWords [0x080000000000] .bigStep, _, reaches_refl _, by decide, exec_eq_program .init fresh, reaches_refl _⟩, ?_⟩
  generalize runProg (program 20 .init) fresh = t at hs hw
  have hs' : t.seq = .idle := hs
  have hw' : t.hostWords = [] := hw
  simp only [step, takeCommand, hs', hw']

/-- What ends `INIT`: its last event, and no event before it, and not the three primitives that have its events. -/
theorem test_commandEnded :
    commandEnded (inProgress .init 1049) = some .init ∧ commandEnded (inProgress .init 1048) = none ∧
    commandEnded (withWords [0x070000000000] .bigStep) = some .initFraming ∧
    commandEnded (withWords [0x080000000000] .smallStep) = none := by decide +kernel

/-- The two framed writers back to back, at the bound (P3: "at least 3 delays"). -/
theorem witness_BackToBackFramesAreSpaced :
    gapsAtLeast 3 (fun e => e == .set .ce) (fun e => e == .clear .ce)
      (eventsIn fresh (.writeReg0 0x47) ++ eventsIn fresh (.writeReg0 0x4F)) = true ∧
    gapsAtLeast 4 (fun e => e == .set .ce) (fun e => e == .clear .ce)
      (eventsIn fresh (.writeReg0 0x47) ++ eventsIn fresh (.writeReg0 0x4F)) = false := by decide +kernel

end Sys2Proof.Tests
end

section
/-! PROOFS. Family 10_state: the word of a command decodes to the command, as a run of presented commands needs it. -/

namespace Sys2Proof

/-- The per-instruction family `EncodeFields` as one lemma. -/
theorem encodeFields : ∀ i : Instr, Laws.EncodeFields.Statement i
  | .generateClock => Laws.EncodeFields.generateClock
  | .write b => Laws.EncodeFields.write b
  | .writeArray b0 b1 b2 b3 b4 => Laws.EncodeFields.writeArray b0 b1 b2 b3 b4
  | .writeChar ch => Laws.EncodeFields.writeChar ch
  | .writeReg0 v => Laws.EncodeFields.writeReg0 v
  | .writeText c0 c1 c2 c3 => Laws.EncodeFields.writeText c0 c1 c2 c3
  | .initFraming => Laws.EncodeFields.initFraming
  | .init => Laws.EncodeFields.init
  | .updateBrightness v => Laws.EncodeFields.updateBrightness v
  | .updateText c0 c1 c2 c3 => Laws.EncodeFields.updateText c0 c1 c2 c3

/-- The word of a command selects the command's row of the opcode map, with its operands (R41, R42). -/
theorem selectRow_encode (i : Instr) : selectRow (encode i) = some i := by
  cases i <;> simp [selectRow, encode, Instr.opcode]

/-- The word of a command decodes to the command (R44). -/
theorem decode_encode (i : Instr) : decode (encode i) = .instr i := by
  have hpadding := (encodeFields i).2
  simp [decode, decodeWith, selectRow_encode, hpadding, Instr.wfWith, Config.primitivesExposed]

end Sys2Proof
end

section
/-! PROOFS. Family 10_state: what pseudocode leaves alone, the events it issues, and the levels they leave. -/

namespace Sys2Proof.Machine

/-! ### What pseudocode leaves alone, field by field -/

section
variable (p : List Micro) (s : State)

@[simp] theorem runProg_cfgDelay : (runProg p s).cfgDelay = s.cfgDelay := (runProg_control p s).1.1
@[simp] theorem runProg_cfgBright : (runProg p s).cfgBright = s.cfgBright := (runProg_control p s).1.2.1
@[simp] theorem runProg_seq : (runProg p s).seq = s.seq := (runProg_control p s).2.1

end

theorem SameConfig.trans {s t u : State} (h : SameConfig s t) (k : SameConfig t u) : SameConfig s u :=
  ⟨k.1.trans h.1, k.2.1.trans h.2.1, k.2.2.trans h.2.2⟩

/-- `Events(c)` reads the configuration registers only (R44). -/
theorem eventsIn_congr {s t : State} (h : SameForCommands s t) (i : Instr) : eventsIn t i = eventsIn s i := by
  rw [eventsIn, eventsIn, h.1, h.2]

theorem SameConfig.forCommands {s t : State} (h : SameConfig s t) : SameForCommands s t := ⟨h.1, h.2.1⟩

/-! ### The events a program issues -/

/-- The events that pseudocode issues when it is run from a state, in order. -/
def issued (p : List Micro) (s : State) : List Event := (collect p s).1

theorem runProg_trace (p : List Micro) (s : State) : (runProg p s).trace = s.trace ++ issued p s := rfl

/-- The events issued are what a run adds to the trace. -/
theorem issued_eq_of_trace {p : List Micro} {s : State} {es : List Event} (h : (runProg p s).trace = s.trace ++ es) :
    issued p s = es :=
  List.append_cancel_left ((runProg_trace p s).symm.trans h)

@[simp] theorem issued_nil (s : State) : issued [] s = [] := rfl

theorem issued_append (p q : List Micro) (s : State) : issued (p ++ q) s = issued p s ++ issued q (runProg p s) :=
  issued_eq_of_trace (by rw [runProg_append, runProg_trace, runProg_trace, List.append_assoc])

/-- The lines follow the events issued (R10, R11). -/
theorem runProg_lines (p : List Micro) (s : State) : (runProg p s).lines = applyEvents s.lines (issued p s) := by
  obtain ⟨es, htrace, hlines, -⟩ := runProg_appends p s
  rw [hlines, issued_eq_of_trace htrace]

theorem issued_of_silent {p : List Micro} (h : ∀ m ∈ p, issues m = false) (s : State) : issued p s = [] :=
  issued_eq_of_trace (by rw [(runProg_silent h s).2, List.append_nil])

theorem issued_cons_of_silent {m : Micro} (h : issues m = false) (p : List Micro) (s : State) :
    issued (m :: p) s = issued p (runMicro m s) := by
  have hm : issued [m] s = [] := issued_of_silent (by simpa using h) s
  simpa [hm] using issued_append [m] p s

theorem issued_cons_of_issue {m : Micro} {s : State} {e : Event} (h : runMicro m s = issue e s) (p : List Micro) :
    issued (m :: p) s = e :: issued p (issue e s) := by
  have hm : issued [m] s = [e] := issued_eq_of_trace (by simp [h])
  simpa [hm, h] using issued_append [m] p s

@[simp] theorem driveLine_din (b : Bool) (s : State) : driveLine .din b s = issue (dinEvent b) s := by
  cases b <;> rfl

@[simp] theorem issued_set (l : Line) (p : List Micro) (s : State) :
    issued (.set l :: p) s = .set l :: issued p (issue (.set l) s) := issued_cons_of_issue rfl p

@[simp] theorem issued_clear (l : Line) (p : List Micro) (s : State) :
    issued (.clear l :: p) s = .clear l :: issued p (issue (.clear l) s) := issued_cons_of_issue rfl p

@[simp] theorem issued_delay (p : List Micro) (s : State) :
    issued (.delay :: p) s = .delay s.cfgDelay :: issued p (issue (.delay s.cfgDelay) s) := issued_cons_of_issue rfl p

@[simp] theorem issued_driveDin (p : List Micro) (s : State) :
    issued (.driveDin :: p) s = dinEvent s.sr.msb :: issued p (issue (dinEvent s.sr.msb) s) :=
  issued_cons_of_issue (m := .driveDin) (driveLine_din s.sr.msb s) p

@[simp] theorem issued_shiftSr (p : List Micro) (s : State) : issued (.shiftSr :: p) s = issued p (putSr (s.sr <<< 1) s) :=
  issued_cons_of_silent rfl p s

@[simp] theorem issued_loadSr (b : Byte) (p : List Micro) (s : State) :
    issued (.loadSr b :: p) s = issued p (putSr b s) := issued_cons_of_silent rfl p s

@[simp] theorem issued_bitcnt (v : BitVec 3) (p : List Micro) (s : State) :
    issued (.bitcnt v :: p) s = issued p (putBitcnt v s) := issued_cons_of_silent rfl p s

@[simp] theorem issued_colcnt (v : BitVec 3) (p : List Micro) (s : State) :
    issued (.colcnt v :: p) s = issued p (putColcnt v s) := issued_cons_of_silent rfl p s

@[simp] theorem issued_chrcnt (v : BitVec 2) (p : List Micro) (s : State) :
    issued (.chrcnt v :: p) s = issued p (putChrcnt v s) := issued_cons_of_silent rfl p s

/-! ### Every program issues the events that its rule lists -/

/-- A round of `WRITE` puts the top bit of `SR` on `DIN` and pulses the clock (R52). -/
theorem issued_writeBitProg (i : BitVec 3) (s : State) :
    issued (writeBitProg i) s = dinEvent s.sr.msb :: pulseEvents s.cfgDelay := by
  simp [writeBitProg, generateClockProg, pulseEvents]

/-- A round of `WRITE` shifts `SR` by one (R54). -/
theorem runProg_writeBitProg_sr (i : BitVec 3) (s : State) : (runProg (writeBitProg i) s).sr = s.sr <<< 1 := by
  simp [writeBitProg, generateClockProg, runMicro, setLine, clearLine, issueDelay]

/-- The rounds of `WRITE` send the bits of `SR` from the top one down (R53, R54). -/
theorem issued_rounds (js : List (BitVec 3)) (s : State) : issued (js.flatMap writeBitProg) s =
    (List.range js.length).flatMap fun k => dinEvent (s.sr.getMsbD k) :: pulseEvents s.cfgDelay := by
  induction js generalizing s with
  | nil => rfl
  | cons j js ih =>
    rw [List.flatMap_cons, issued_append, issued_writeBitProg, ih, runProg_writeBitProg_sr, List.length_cons,
      List.range_succ_eq_map, List.flatMap_cons, List.flatMap_map]
    simp [BitVec.msb]

@[simp] theorem issued_writeProg (b : Byte) (s : State) : issued (writeProg b) s = writeEvents s.cfgDelay b := by
  have hbits : issued (bitLoop.flatMap writeBitProg) (putSr b s) =
      ([7, 6, 5, 4, 3, 2, 1, 0] : List Nat).flatMap fun i => dinEvent (b.getLsbD i) :: pulseEvents s.cfgDelay :=
    issued_rounds bitLoop (putSr b s)
  rw [writeProg, List.append_assoc, List.singleton_append, issued_loadSr, issued_append, hbits]
  simp [writeEvents]

@[simp] theorem issued_writeArrayProg (g : Glyph) (s : State) :
    issued (writeArrayProg g) s = writeArrayEvents s.cfgDelay g := by
  simp [writeArrayProg, colLoop, writeArrayEvents, Glyph.bytes, issued_append]

@[simp] theorem issued_writeCharProg (ch : Byte) (s : State) :
    issued (writeCharProg ch) s = writeCharEvents s.cfgDelay ch :=
  issued_writeArrayProg (glyph ch) s

@[simp] theorem issued_writeReg0Prog (v : Byte) (s : State) :
    issued (writeReg0Prog v) s = writeReg0Events s.cfgDelay v := by
  simp [writeReg0Prog, writeReg0Events, issued_append]

@[simp] theorem issued_writeTextProg (c0 c1 c2 c3 : Byte) (s : State) :
    issued (writeTextProg c0 c1 c2 c3) s = writeTextEvents s.cfgDelay c0 c1 c2 c3 := by
  simp [writeTextProg, writeTextEvents, chrLoop, issued_append]

@[simp] theorem issued_initProg (bright : Byte) (s : State) :
    issued (initProg bright) s = initEvents s.cfgDelay bright := by
  simp [initProg, initEvents, initFramingProg, initFramingEvents, issued_append]

/-- The program of a command issues `Events(c)` (R44): the pseudocode and the closed form agree. -/
theorem issued_program (i : Instr) (s : State) : issued (program s.cfgBright i) s = eventsIn s i := by
  cases i with
  | generateClock => rfl
  | write b => exact issued_writeProg b s
  | writeArray b0 b1 b2 b3 b4 => exact issued_writeArrayProg ⟨b0, b1, b2, b3, b4⟩ s
  | writeChar ch => exact issued_writeCharProg ch s
  | writeReg0 v => exact issued_writeReg0Prog v s
  | writeText c0 c1 c2 c3 => exact issued_writeTextProg c0 c1 c2 c3 s
  | initFraming => rfl
  | init => exact issued_initProg s.cfgBright s
  | updateBrightness v => exact issued_writeReg0Prog (brightnessByte v) s
  | updateText c0 c1 c2 c3 => exact issued_writeTextProg c0 c1 c2 c3 s

/-- What running a command whole does (R21): it answers a next state, appends `Events(c)`, and the lines follow. -/
theorem exec_spec (i : Instr) (s : State) : ∃ t, exec i s = .next t ∧ t.trace = s.trace ++ eventsIn s i ∧
    t.lines = applyEvents s.lines (eventsIn s i) ∧ SameControl s t := by
  refine ⟨_, exec_eq_program i s, ?_, ?_, runProg_control _ s⟩
  · rw [runProg_trace, issued_program]
  · rw [runProg_lines, issued_program]

end Sys2Proof.Machine
end

section
/-! PROOFS. Family 10_state: the levels that the events of a command leave, and which events a command has. -/

namespace Sys2Proof.Machine

/-! ### The levels a list of events leaves -/

/-- The last write of a line is that of the later events, or else that of the first. -/
theorem lastLevel_cons (l : Line) (e : Event) (es : List Event) :
    lastLevel l (e :: es) = (lastLevel l es).or (lastLevel l [e]) := by
  cases h : lastLevel l es <;> cases e <;> simp [lastLevel, h]

theorem levelOf_applyEvent (L : Lines) (e : Event) (l : Line) :
    levelOf (applyEvent L e) l = (lastLevel l [e]).getD (levelOf L l) := by
  cases e with
  | set m | clear m => by_cases h : m = l <;> simp [applyEvent, levelOf_putLevel, lastLevel, h, eq_comm (a := l)]
  | delay n => rfl

/-- A line ends at the level of its last `Set` or `Clear`, or keeps its own (R21). -/
theorem levelOf_applyEvents (es : List Event) (L : Lines) (l : Line) :
    levelOf (applyEvents L es) l = (lastLevel l es).getD (levelOf L l) := by
  induction es generalizing L with
  | nil => rfl
  | cons e es ih => rw [applyEvents_cons, ih, levelOf_applyEvent, lastLevel_cons l e es, Option.getD_or]

/-- No event drives a line to `U` (R8). -/
theorem lastLevel_ne_unknown (l : Line) (es : List Event) : lastLevel l es ≠ some .unknown := by
  induction es with
  | nil => simp [lastLevel]
  | cons e es ih =>
    have he : lastLevel l [e] ≠ some .unknown := by cases e <;> simp [lastLevel]
    rw [lastLevel_cons, Ne, Option.or_eq_some_iff]
    simp [ih, he]

section
variable (L : Lines)

@[simp] theorem applyEvents_pulseEvents (d : Nat) : applyEvents L (pulseEvents d) = { L with clk := .low } := rfl

/-- A round of `WRITE` leaves `CLK` low and `DIN` at the bit sent (R52). -/
theorem applyEvents_bit (d : Nat) (b : Bool) :
    applyEvents L (dinEvent b :: pulseEvents d) = { L with din := bitLevel b, clk := .low } := by
  cases b <;> rfl

/-- Every `WRITE` leaves `DIN` and `CLK` low and the other lines alone (R52). -/
@[simp] theorem applyEvents_writeEvents (d : Nat) (b : Byte) :
    applyEvents L (writeEvents d b) = { L with din := .low, clk := .low } := by
  simp only [writeEvents, List.flatMap_cons, List.flatMap_nil, applyEvents_append, applyEvents_bit]
  rfl

@[simp] theorem applyEvents_writeArrayEvents (d : Nat) (g : Glyph) :
    applyEvents L (writeArrayEvents d g) = { L with din := .low, clk := .low } := by
  simp [writeArrayEvents, Glyph.bytes, applyEvents_append]

@[simp] theorem applyEvents_writeCharEvents (d : Nat) (ch : Byte) :
    applyEvents L (writeCharEvents d ch) = { L with din := .low, clk := .low } :=
  applyEvents_writeArrayEvents L d (glyph ch)

@[simp] theorem applyEvents_writeReg0Events (d : Nat) (v : Byte) : applyEvents L (writeReg0Events d v) = idleBus := by
  simp [writeReg0Events, applyEvents_append, applyEvent, putLevel, idleBus]

@[simp] theorem applyEvents_writeTextEvents (d : Nat) (c0 c1 c2 c3 : Byte) :
    applyEvents L (writeTextEvents d c0 c1 c2 c3) = idleBus := by
  simp [writeTextEvents, applyEvents_append, applyEvent, putLevel, idleBus]

@[simp] theorem applyEvents_initFramingEvents :
    applyEvents L initFramingEvents = { L with ce := .high, din := .low, clk := .low } := rfl

@[simp] theorem applyEvents_initEvents (d : Nat) (bright : Byte) : applyEvents L (initEvents d bright) = idleBus := by
  simp [initEvents, applyEvents_append]

end

theorem quiet_idleBus : Quiet idleBus := by simp [Quiet, idleBus]

/-- A command run from quiet lines leaves quiet lines: each operation either leaves the idle bus state or pulls `DIN` and
`CLK` low and `CE`, if anything, high (R94). -/
theorem quiet_applyEvents_events {L : Lines} (h : Quiet L) (d : Nat) (bright : Byte) (i : Instr) :
    Quiet (applyEvents L (events d bright i)) := by
  obtain ⟨hce, hdin, hclk, hrs⟩ := h
  cases i with
  | generateClock | write | writeArray | writeChar | initFraming => simp [events, Quiet, hce, hdin, hrs]
  | writeReg0 | writeText | init | updateBrightness | updateText => simpa [events] using quiet_idleBus

/-! ### Which events a command has -/

/-- The events with which bytes are shifted out: writes of `DIN` and `CLK`, and delays (R52). -/
def shiftEvents (d : Nat) : List Event := [.set .din, .clear .din, .set .clk, .clear .clk, .delay d]

theorem dinEvent_mem_shiftEvents (d : Nat) (b : Bool) : dinEvent b ∈ shiftEvents d := by
  cases b <;> simp [dinEvent, shiftEvents]

theorem pulseEvents_subset (d : Nat) : pulseEvents d ⊆ shiftEvents d := by simp [pulseEvents, shiftEvents]

theorem writeEvents_subset (d : Nat) (b : Byte) : writeEvents d b ⊆ shiftEvents d := by
  have hlast : Event.clear .din ∈ shiftEvents d := dinEvent_mem_shiftEvents d false
  simp [writeEvents, pulseEvents_subset, dinEvent_mem_shiftEvents, hlast]

theorem writeArrayEvents_subset (d : Nat) (g : Glyph) : writeArrayEvents d g ⊆ shiftEvents d := by
  intro e he
  obtain ⟨b, -, hb⟩ := List.mem_flatMap.mp he
  exact writeEvents_subset d b hb

theorem writeTextEvents_subset (d : Nat) (c0 c1 c2 c3 : Byte) :
    writeTextEvents d c0 c1 c2 c3 ⊆ .clear .rs :: .set .ce :: .clear .ce :: shiftEvents d := by
  have hw (ch : Byte) : writeCharEvents d ch ⊆ .clear .rs :: .set .ce :: .clear .ce :: shiftEvents d :=
    fun e he => by simp [writeArrayEvents_subset d (glyph ch) he]
  simpa [writeTextEvents, shiftEvents] using ⟨hw c0, hw c1, hw c2, hw c3⟩

/-- Every event a command can have (R9, R14). -/
def busEvents (d : Nat) : List Event := .set .rs :: .clear .rs :: .set .ce :: .clear .ce :: shiftEvents d

theorem shiftEvents_subset (d : Nat) : shiftEvents d ⊆ busEvents d := fun e he => by simp [busEvents, he]

theorem writeReg0Events_subset (d : Nat) (v : Byte) : writeReg0Events d v ⊆ busEvents d := by
  have hw := List.Subset.trans (writeEvents_subset d v) (shiftEvents_subset d)
  simpa [writeReg0Events, busEvents, shiftEvents] using hw

theorem events_subset (d : Nat) (bright : Byte) (i : Instr) : events d bright i ⊆ busEvents d := by
  have hshift {es : List Event} (h : es ⊆ shiftEvents d) : es ⊆ busEvents d :=
    List.Subset.trans h (shiftEvents_subset d)
  have htext (c0 c1 c2 c3 : Byte) : writeTextEvents d c0 c1 c2 c3 ⊆ busEvents d :=
    List.Subset.trans (writeTextEvents_subset d c0 c1 c2 c3) (List.subset_cons_self _ _)
  have hframing : initFramingEvents ⊆ busEvents d := by simp [initFramingEvents, busEvents, shiftEvents]
  cases i with
  | generateClock => exact hshift (pulseEvents_subset d)
  | write b => exact hshift (writeEvents_subset d b)
  | writeArray | writeChar => exact hshift (writeArrayEvents_subset d _)
  | writeReg0 | updateBrightness => exact writeReg0Events_subset d _
  | writeText | updateText => exact htext _ _ _ _
  | initFraming => exact hframing
  | init =>
    exact List.append_subset.mpr ⟨List.append_subset.mpr ⟨hframing, htext _ _ _ _⟩, writeReg0Events_subset d _⟩

end Sys2Proof.Machine
end

section
/-! PROOFS. Family 10_state: running a program event by event. A command in progress stands at the state to which the part
of its program through its `k`-th event leads. -/

namespace Sys2Proof.Machine

/-! ### `SEQ` and pseudocode do not meet -/

theorem runMicro_putSeq (m : Micro) (v : Seq) (s : State) : runMicro m (putSeq v s) = putSeq v (runMicro m s) := by
  cases m with
  | driveDin => simp only [runMicro, driveLine_din]; rfl
  | _ => rfl

theorem runProg_putSeq (p : List Micro) (v : Seq) (s : State) : runProg p (putSeq v s) = putSeq v (runProg p s) := by
  induction p generalizing s with
  | nil => simp
  | cons m p ih => rw [runProg_cons, runProg_cons, runMicro_putSeq, ih]

theorem putSeq_eq_self {v : Seq} {s : State} (h : s.seq = v) : putSeq v s = s := by rw [← h]; rfl

/-! ### The part of a program through an event -/

/-- The lines of a program up to and with the one that issues its `k`-th event, counted from one. -/
def takeThrough (p : List Micro) (k : Nat) : List Micro :=
  match p, k with
  | [], _ => []
  | _ :: _, 0 => []
  | m :: ms, k + 1 => if issues m then m :: takeThrough ms k else m :: takeThrough ms (k + 1)

@[simp] theorem takeThrough_zero (p : List Micro) : takeThrough p 0 = [] := by cases p <;> rfl

/-- From one event to the next a program runs the lines that `workBefore` names and one that issues (log entry 8). -/
theorem takeThrough_succ (p : List Micro) (k : Nat) (h : k < p.countP issues) :
    ∃ m, issues m = true ∧ takeThrough p (k + 1) = takeThrough p k ++ workBefore p k ++ [m] := by
  induction p generalizing k with
  | nil => simp at h
  | cons m p ih =>
    cases hm : issues m with
    | true =>
      cases k with
      | zero => exact ⟨m, hm, by simp [takeThrough, workBefore, hm]⟩
      | succ k =>
        rw [List.countP_cons_of_pos hm] at h
        obtain ⟨x, hx, hp⟩ := ih k (by omega)
        exact ⟨x, hx, by simp [takeThrough, workBefore, hm, hp]⟩
    | false =>
      rw [List.countP_cons_of_neg (by simp [hm])] at h
      obtain ⟨x, hx, hp⟩ := ih k h
      cases k with
      | zero => exact ⟨x, hx, by simpa [takeThrough, workBefore, hm] using hp⟩
      | succ k => exact ⟨x, hx, by simp [takeThrough, workBefore, hm, hp]⟩

/-- The part through event `k` issues the first `k` events. -/
theorem issued_takeThrough (p : List Micro) (k : Nat) (s : State) :
    issued (takeThrough p k) s = (issued p s).take k := by
  induction p generalizing k s with
  | nil => simp [takeThrough]
  | cons m p ih =>
    cases k with
    | zero => simp
    | succ k =>
      rcases runMicro_cases m s with ⟨hm, e, he⟩ | ⟨hm, -⟩
      · simp [takeThrough, hm, issued_cons_of_issue he, ih]
      · simp [takeThrough, hm, issued_cons_of_silent hm, ih]

/-- The program's last line issues an event, so that nothing is left to do after the last event. -/
def EndsInEvent (p : List Micro) : Prop := ∃ q m, p = q ++ [m] ∧ issues m = true

theorem EndsInEvent.append_left {q : List Micro} (h : EndsInEvent q) (p : List Micro) : EndsInEvent (p ++ q) := by
  obtain ⟨r, m, rfl, hm⟩ := h
  exact ⟨p ++ r, m, (List.append_assoc ..).symm, hm⟩

theorem EndsInEvent.countP_pos {p : List Micro} (h : EndsInEvent p) : 0 < p.countP issues := by
  obtain ⟨q, m, rfl, hm⟩ := h
  simp [hm]

/-- The part of such a program through its last event is the whole program. -/
theorem EndsInEvent.takeThrough_all {p : List Micro} (h : EndsInEvent p) : takeThrough p (p.countP issues) = p := by
  obtain ⟨q, m, rfl, hm⟩ := h
  induction q with
  | nil => simp [takeThrough, hm]
  | cons x q ih =>
    rw [List.cons_append]
    cases hx : issues x with
    | true => rw [List.countP_cons_of_pos hx, takeThrough, if_pos hx, ih]
    | false =>
      have hpos : 0 < (q ++ [m]).countP issues := EndsInEvent.countP_pos ⟨q, m, rfl, hm⟩
      obtain ⟨n, hn⟩ := Nat.exists_eq_add_one.mpr hpos
      rw [List.countP_cons_of_neg (by simp [hx]), hn, takeThrough, if_neg (by simp [hx]), ← hn, ih]

theorem endsInEvent_writeArrayProg (g : Glyph) : EndsInEvent (writeArrayProg g) := by
  have hlast : EndsInEvent (writeProg g.g4) := ⟨_, _, rfl, rfl⟩
  have hsplit : writeArrayProg g = ((colLoop g).dropLast.flatMap fun c => .colcnt c.1 :: writeProg c.2) ++
      [.colcnt 4] ++ writeProg g.g4 := by
    simp [writeArrayProg, colLoop]
  exact hsplit ▸ hlast.append_left _

theorem endsInEvent_program (bright : Byte) (i : Instr) : EndsInEvent (program bright i) := by
  have hreg (v : Byte) : EndsInEvent (writeReg0Prog v) :=
    EndsInEvent.append_left (q := [.set .ce, .delay, .clear .clk, .delay, .clear .rs])
      ⟨[.set .ce, .delay, .clear .clk, .delay], .clear .rs, rfl, rfl⟩ _
  have htext (c0 c1 c2 c3 : Byte) : EndsInEvent (writeTextProg c0 c1 c2 c3) :=
    EndsInEvent.append_left (q := [.set .ce, .delay, .clear .clk, .delay, .clear .din])
      ⟨[.set .ce, .delay, .clear .clk, .delay], .clear .din, rfl, rfl⟩ _
  cases i with
  | generateClock => exact ⟨[.clear .clk, .delay, .set .clk, .delay], .clear .clk, rfl, rfl⟩
  | write b => exact ⟨_, _, rfl, rfl⟩
  | writeArray b0 b1 b2 b3 b4 => exact endsInEvent_writeArrayProg _
  | writeChar ch => exact endsInEvent_writeArrayProg _
  | writeReg0 v => exact hreg v
  | writeText c0 c1 c2 c3 => exact htext c0 c1 c2 c3
  | initFraming => exact ⟨[.set .ce, .clear .clk], .clear .din, rfl, rfl⟩
  | init => exact (hreg _).append_left _
  | updateBrightness v => exact hreg _
  | updateText c0 c1 c2 c3 => exact htext c0 c1 c2 c3

theorem length_eventsIn (s : State) (i : Instr) : (eventsIn s i).length = (program s.cfgBright i).countP issues := by
  obtain ⟨es, htrace, -, hlen⟩ := runProg_appends (program s.cfgBright i) s
  rw [← hlen, ← issued_program, issued_eq_of_trace htrace]

/-- Every command has an event, so that a command in progress always has a next one (R20). -/
theorem length_eventsIn_pos (s : State) (i : Instr) : 0 < (eventsIn s i).length :=
  length_eventsIn s i ▸ (endsInEvent_program s.cfgBright i).countP_pos

/-! ### A command in progress -/

/-- The state in which `k` events of the command `i`, begun in `s`, have been issued one by one. -/
def afterEvents (i : Instr) (s : State) (k : Nat) : State :=
  putSeq (if k = (eventsIn s i).length then .idle else .busy i k) (runProg (takeThrough (program s.cfgBright i) k) s)

theorem afterEvents_zero (i : Instr) (s : State) : afterEvents i s 0 = acceptCommand i s := by
  simp [afterEvents, acceptCommand, (length_eventsIn_pos s i).ne]

/-- After its last event the command has done what running it whole does (R21). -/
theorem afterEvents_all {i : Instr} {s : State} (h : s.seq = .idle) :
    afterEvents i s (eventsIn s i).length = runProg (program s.cfgBright i) s := by
  rw [afterEvents, if_pos rfl, length_eventsIn, (endsInEvent_program s.cfgBright i).takeThrough_all,
    putSeq_eq_self ((runProg_seq _ s).trans h)]

/-- From `k` events to `k + 1` a program does the work before its next event and issues that event. -/
theorem runProg_takeThrough_succ {i : Instr} {s : State} {k : Nat} (h : k < (eventsIn s i).length) :
    ∃ e, (eventsIn s i)[k]? = some e ∧ runProg (takeThrough (program s.cfgBright i) (k + 1)) s =
      issue e (runProg (workBefore (program s.cfgBright i) k) (runProg (takeThrough (program s.cfgBright i) k) s)) := by
  obtain ⟨m, hm, hsplit⟩ := takeThrough_succ (program s.cfgBright i) k (length_eventsIn s i ▸ h)
  obtain ⟨-, e, he⟩ | ⟨hsilent, -⟩ := runMicro_cases m
    (runProg (takeThrough (program s.cfgBright i) k ++ workBefore (program s.cfgBright i) k) s)
  · refine ⟨e, ?_, ?_⟩
    · have htake : (eventsIn s i).take (k + 1) = (eventsIn s i).take k ++ [e] := by
        rw [← issued_program, ← issued_takeThrough, ← issued_takeThrough, hsplit, issued_append, issued_append,
          issued_of_silent (workBefore_issues _ k), issued_cons_of_issue he, issued_nil, List.append_nil]
      rw [List.take_add_one] at htake
      exact Option.toList_eq_singleton_iff.mp (List.append_cancel_left htake)
    · rw [hsplit, runProg_append _ [m], runProg_cons, runProg_nil, he, runProg_append]
  · rw [hm] at hsilent
    cases hsilent

/-- A step of a command in progress issues its next event (R21). -/
theorem step_afterEvents {i : Instr} {s : State} {k : Nat} (h : k < (eventsIn s i).length) :
    step (afterEvents i s k) = .next (afterEvents i s (k + 1)) := by
  obtain ⟨e, he, hrun⟩ := runProg_takeThrough_succ h
  have hevents : eventsIn (afterEvents i s k) i = eventsIn s i := by simp [afterEvents, eventsIn]
  have hbright : (afterEvents i s k).cfgBright = s.cfgBright := by simp [afterEvents]
  have hstep : step (afterEvents i s k) = smallStep i k (afterEvents i s k) := by simp [step, afterEvents, h.ne]
  rw [hstep, smallStep_within (hevents ▸ he), hevents, hbright, afterEvents, afterEvents, hrun, runProg_putSeq]
  rfl

theorem run_one (s : State) : Host.Core.run Sys2Proof.core 1 s = step s := by
  cases h : step s with
  | next t => exact run_succ_of_step h 0
  | fault r | refused r =>
    simp only [Host.Core.run, show Sys2Proof.core.step s = _ from h]
    rfl

/-- A run of `n + 1` steps is a run of `n` and a step. -/
theorem run_succ_of_run {s t : State} {n : Nat} (h : Host.Core.run Sys2Proof.core n s = .next t) :
    Host.Core.run Sys2Proof.core (n + 1) s = step t := by
  induction n generalizing s with
  | zero => cases h; exact run_one _
  | succ n ih =>
    obtain ⟨u, hu, hrun⟩ := step_of_run_succ h
    rw [run_succ_of_step hu, ih hrun]

theorem run_acceptCommand {i : Instr} {s : State} {k : Nat} (h : k ≤ (eventsIn s i).length) :
    Host.Core.run Sys2Proof.core k (acceptCommand i s) = .next (afterEvents i s k) := by
  induction k with
  | zero => rw [afterEvents_zero]; rfl
  | succ k ih => exact (run_succ_of_run (ih (by omega))).trans (step_afterEvents (by omega))

end Sys2Proof.Machine
end

section
/-! PROOFS. Family 10_state: the statements. -/

namespace Sys2Proof.Machine

/-! ### What one step does, case by case -/

theorem step_of_busy {s : State} {i : Instr} {k : Nat} (h : s.seq = .busy i k) : step s = smallStep i k s := by
  simp only [step, h]

theorem step_of_bigStep {s : State} {w : CmdWord} {ws : List CmdWord} {i : Instr} (hseq : s.seq = .idle)
    (hgrain : s.grain = .bigStep) (hport : s.hostWords = w :: ws) (hdecode : decode w = .instr i) :
    step s = exec i { s with hostWords := ws } := by
  simp only [step, takeCommand, hseq, hgrain, hport, hdecode]

theorem step_of_smallStep {s : State} {w : CmdWord} {ws : List CmdWord} {i : Instr} (hseq : s.seq = .idle)
    (hgrain : s.grain = .smallStep) (hport : s.hostWords = w :: ws) (hdecode : decode w = .instr i) :
    step s = .next (acceptCommand i { s with hostWords := ws }) := by
  simp only [step, takeCommand, hseq, hgrain, hport, hdecode]

/-- A step of an idle block never faults: every meaning answers a next state. -/
theorem step_idle_ne_fault {s : State} (h : s.seq = .idle) (r : Fault) : step s ≠ .fault r := by
  intro hstep
  simp only [step, h, exec_eq_program] at hstep
  split at hstep
  · cases hstep
  · split at hstep
    · cases hstep
    · split at hstep <;> cases hstep

/-- One small step (R21): the state it leaves, field by field where a claim speaks of it. -/
theorem smallStep_spec {i : Instr} {k : Nat} {s : State} {e : Event} (h : (eventsIn s i)[k]? = some e) :
    ∃ t, smallStep i k s = .next t ∧ t.trace = s.trace ++ [e] ∧ t.lines = applyEvent s.lines e ∧
      t.seq = seqAfter i k (eventsIn s i).length ∧ t.hostWords = s.hostWords ∧ t.grain = s.grain ∧ SameConfig s t := by
  obtain ⟨hlines, htrace⟩ := runProg_silent (workBefore_issues (program s.cfgBright i) k) s
  obtain ⟨hconfig, -, hport, hgrain⟩ := runProg_control (workBefore (program s.cfgBright i) k) s
  refine ⟨_, smallStep_within h, ?_, ?_, rfl, hport, hgrain, hconfig⟩
  · simp [htrace]
  · simp [hlines]

/-- What every step does to the trace, the lines and the configuration: it appends events, the lines follow them, and no
configuration register is written (R10, R11, R14 to R16). -/
theorem step_appends {s t : State} (h : step s = .next t) :
    SameConfig s t ∧ ∃ es, t.trace = s.trace ++ es ∧ t.lines = applyEvents s.lines es := by
  obtain ⟨i, k, e, hseq, he, -⟩ | ⟨-, -, rfl⟩ | ⟨w, ws, i, -, -, -, -, rfl⟩ | ⟨w, ws, i, -, -, -, -, rfl⟩ := step_cases h
  · obtain ⟨u, hu, htrace, hlines, -, -, -, hconfig⟩ := smallStep_spec he
    rw [step_of_busy hseq, hu] at h
    cases h
    exact ⟨hconfig, [e], htrace, hlines⟩
  · exact ⟨⟨rfl, rfl, rfl⟩, [], by simp⟩
  · exact ⟨(runProg_control _ _).1, _, runProg_trace _ _, runProg_lines _ _⟩
  · exact ⟨⟨rfl, rfl, rfl⟩, [], by simp⟩

/-! ### The invariant -/

theorem LinesFromTrace.step {s t : State} (h : LinesFromTrace s) (hstep : step s = .next t) : LinesFromTrace t := by
  obtain ⟨-, es, htrace, hlines⟩ := step_appends hstep
  rw [LinesFromTrace, hlines, htrace, applyEvents_append, ← h]

theorem ConfigFits.step {s t : State} (h : ConfigFits s) (hstep : step s = .next t) : ConfigFits t := by
  obtain ⟨⟨hdelay, -, hident⟩, -⟩ := step_appends hstep
  rwa [ConfigFits, hdelay, hident]

/-- One event of a command in progress advances `upc` and the lines together, and its last event is where the command has
run whole. -/
theorem boundary_of_busy {s t : State} {i : Instr} {k : Nat} {e : Event} (hseq : s.seq = .busy i k)
    (he : (eventsIn s i)[k]? = some e) (hquiet : QuietAtBoundary s) (h : step s = .next t) :
    SeqBounded t ∧ QuietAtBoundary t := by
  obtain ⟨u, hu, -, hlines, hseq', -, -, hconfig⟩ := smallStep_spec he
  rw [step_of_busy hseq, hu] at h
  cases h
  simp only [QuietAtBoundary, hseq] at hquiet
  obtain ⟨L0, hL0, hs⟩ := hquiet
  have hsofar : t.lines = applyEvents L0 ((eventsIn s i).take (k + 1)) := by
    rw [hlines, hs, List.take_add_one, he, applyEvents_append]
    rfl
  by_cases hlast : k + 1 = (eventsIn s i).length
  · rw [seqAfter, if_pos hlast] at hseq'
    rw [hlast, List.take_length] at hsofar
    simp only [SeqBounded, QuietAtBoundary, hseq', hsofar]
    exact ⟨trivial, quiet_applyEvents_events hL0 _ _ i⟩
  · have hk := (List.getElem?_eq_some_iff.mp he).1
    rw [seqAfter, if_neg hlast] at hseq'
    simp only [SeqBounded, QuietAtBoundary, hseq', eventsIn_congr hconfig.forCommands]
    exact ⟨by omega, L0, hL0, hsofar⟩

/-- Every step keeps `upc` in its bound and the lines quiet at command boundaries. -/
theorem boundary_step {s t : State} (hbound : SeqBounded s) (hquiet : QuietAtBoundary s) (h : step s = .next t) :
    SeqBounded t ∧ QuietAtBoundary t := by
  obtain ⟨i, k, e, hseq, he, -⟩ | ⟨-, -, rfl⟩ | ⟨w, ws, i, hseq, hport, hdecode, hgrain, -⟩ |
    ⟨w, ws, i, hseq, -, -, -, rfl⟩ := step_cases h
  · exact boundary_of_busy hseq he hquiet h
  · exact ⟨hbound, hquiet⟩
  · obtain ⟨u, hu, -, hlines, -, hseq', -, -⟩ := exec_spec i { s with hostWords := ws }
    rw [step_of_bigStep hseq hgrain hport hdecode, hu] at h
    cases h
    simp only [QuietAtBoundary, hseq] at hquiet
    simp only [SeqBounded, QuietAtBoundary, hseq', hseq, hlines]
    exact ⟨trivial, quiet_applyEvents_events hquiet _ _ i⟩
  · simp only [QuietAtBoundary, hseq] at hquiet
    exact ⟨length_eventsIn_pos _ i, s.lines, hquiet, rfl⟩

/-- Settles O17: the four parts of the invariant, each kept by every step. -/
theorem stepKeepsInvariant : Obligations.StepKeepsInvariant := by
  intro s t ⟨hbound, hlines, hfits, hquiet⟩ hstep
  obtain ⟨hbound', hquiet'⟩ := boundary_step hbound hquiet hstep
  exact ⟨hbound', hlines.step hstep, hfits.step hstep, hquiet'⟩

/-- Settles O16. -/
theorem resetMeetsInvariant : Obligations.ResetMeetsInvariant := by
  have hquiet : Quiet Lines.unknown := by simp [Quiet, Lines.unknown]
  exact ⟨trivial, rfl, ⟨Config.delayBits.isLt, Config.identBits.isLt⟩, hquiet⟩

/-- Settles O15. -/
theorem resetLeaves : Obligations.ResetLeaves :=
  ⟨fun _ _ _ => ⟨⟨resetWith_lines .., resetWith_trace .., resetWith_seq ..⟩, resetWith_cfgDelay ..,
    resetWith_cfgBright .., resetWith_cfgId ..⟩, rfl⟩

/-! ### The step -/

/-- Settles O7. -/
theorem stepRunsDecodedCommand : Obligations.StepRunsDecodedCommand :=
  fun _ _ _ _ hseq hgrain hport hdecode => step_of_bigStep hseq hgrain hport hdecode

/-- Settles O8. -/
theorem stepAcceptsCommand : Obligations.StepAcceptsCommand :=
  fun _ _ _ _ hseq hgrain hport hdecode => step_of_smallStep hseq hgrain hport hdecode

/-- Settles O9: what one small step leaves. -/
theorem busyStepIssuesOneEvent : Obligations.BusyStepIssuesOneEvent := by
  intro s i k e hseq he
  rw [step_of_busy hseq]
  exact smallStep_spec he

/-- Settles O18: an idle step answers or refuses, and a busy one faults out of bound only. -/
theorem faultOnlyOutOfBound : Obligations.FaultOnlyOutOfBound := by
  intro s
  cases hseq : s.seq with
  | idle => simp [step_idle_ne_fault hseq, SeqBounded, hseq]
  | busy i k =>
    have hfault : (∃ r, step s = .fault r) ↔ (eventsIn s i).length ≤ k := by
      simp only [step_of_busy hseq, smallStep_fault_iff, exists_const_iff]
      exact ⟨fun h => h.2, fun h => ⟨⟨.upcOutOfRange⟩, h⟩⟩
    simp [hfault, SeqBounded, hseq]

/-- Settles O21: a step appends the events it issues. -/
theorem traceIsAppendOnly : Obligations.TraceIsAppendOnly := by
  intro s t hstep
  obtain ⟨-, es, htrace, -⟩ := step_appends hstep
  exact ⟨es, htrace.symm⟩

/-- Settles O22: a line is at the level of its last write, which is never `U`, or keeps its own. -/
theorem unknownLevelNeverReturns : Obligations.UnknownLevelNeverReturns := by
  intro s t l hstep hunknown
  obtain ⟨-, es, -, hlines⟩ := step_appends hstep
  rw [hlines, levelOf_applyEvents] at hunknown
  cases hlast : lastLevel l es with
  | none => simpa [hlast] using hunknown
  | some v => exact absurd (by simpa [hlast] using hunknown) (hlast ▸ lastLevel_ne_unknown l es)

/-- Settles O23. -/
theorem noStepWritesConfiguration : Obligations.NoStepWritesConfiguration :=
  fun _ _ hstep => (step_appends hstep).1

/-! ### Commands run whole -/

/-- Settles O11: the program issues `Events(c)`, and each line keeps to its last write. -/
theorem commandAppendsItsEvents : Obligations.CommandAppendsItsEvents := by
  intro i s
  obtain ⟨t, ht, htrace, hlines, hcontrol⟩ := exec_spec i s
  exact ⟨t, ht, htrace, fun l => hlines ▸ levelOf_applyEvents _ s.lines l, hcontrol⟩

/-- Settles O25: what is appended is `Events(c)`, which reads the configuration only. -/
theorem commandsIgnoreLinesAndHistory : Obligations.CommandsIgnoreLinesAndHistory := by
  intro s s' i hsame
  obtain ⟨t, ht, htrace, -⟩ := exec_spec i s
  obtain ⟨t', ht', htrace', -⟩ := exec_spec i s'
  exact ⟨t, t', eventsIn s i, ht, ht', htrace, eventsIn_congr hsame i ▸ htrace'⟩

/-- Settles O49: `UPDATE_BRIGHTNESS` keeps the configuration, so the `INIT` after it has the events it had before. -/
theorem brightnessIsNotMirrored : Obligations.BrightnessIsNotMirrored := by
  intro s v
  obtain ⟨t, ht, htrace, -, hconfig, -⟩ := exec_spec (.updateBrightness v) s
  obtain ⟨u, hu, hutrace, -⟩ := exec_spec .init t
  refine ⟨t, u, ht, hu, hconfig.2.1, ?_⟩
  rw [hutrace, htrace, eventsIn_congr hconfig.forCommands]

/-- Settles O12: through the states in which some of the command's events have been issued. -/
theorem bothStepSemanticsAgree : Obligations.BothStepSemanticsAgree := by
  intro s w ws i hseq hgrain hport hdecode
  have hidle : ({ s with hostWords := ws } : State).seq = .idle := hseq
  rw [Nat.add_comm, run_succ_of_step (step_of_smallStep hseq hgrain hport hdecode), exec_eq_program,
    ← afterEvents_all hidle]
  exact run_acceptCommand le_rfl

/-- Settles O14, by induction on the commands presented. -/
theorem runIsConcatenation : Obligations.RunIsConcatenation := by
  intro cmds
  induction cmds with
  | nil => exact fun s hseq _ hport => ⟨s, rfl, by simp, rfl, hseq, hport, rfl, rfl, rfl⟩
  | cons i cmds ih =>
    intro s hseq hgrain hport
    obtain ⟨u, hu, hutrace, hulines, huconfig, huseq, huport, hugrain⟩ :=
      exec_spec i { s with hostWords := cmds.map encode }
    obtain ⟨t, hrun, htrace, hlines, htseq, htport, htconfig⟩ := ih u (huseq.trans hseq) (hugrain.trans hgrain) huport
    have hevents : eventsIn u = eventsIn s := funext (eventsIn_congr (s := s) huconfig.forCommands)
    have hstep : step s = .next u := (step_of_bigStep hseq hgrain hport (decode_encode i)).trans hu
    refine ⟨t, (run_succ_of_step hstep _).trans hrun, ?_, ?_, htseq, htport, SameConfig.trans (s := s) huconfig htconfig⟩
    · rw [htrace, hutrace, hevents, List.flatMap_cons, List.append_assoc]; rfl
    · rw [hlines, hulines, hevents, List.flatMap_cons, applyEvents_append]; rfl

/-! ### The events of commands -/

/-- Settles O24. -/
theorem everyDelayIsTheConfiguredOne : Obligations.EveryDelayIsTheConfiguredOne := by
  intro s i n hn
  have hbus := events_subset s.cfgDelay s.cfgBright i hn
  simpa [busEvents, shiftEvents] using hbus

/-- Settles O39: `WRITE_REG0` and the two commands that call it open with `Set(RS)`; no other command has it. -/
theorem onlyReg0RaisesRegisterSelect : Obligations.OnlyReg0RaisesRegisterSelect := by
  intro s i
  have hshift : Event.set .rs ∉ shiftEvents s.cfgDelay := by simp [shiftEvents]
  have hwrite (b : Byte) := fun h => hshift (writeEvents_subset s.cfgDelay b h)
  have harray (g : Glyph) := fun h => hshift (writeArrayEvents_subset s.cfgDelay g h)
  have htext (c0 c1 c2 c3 : Byte) : Event.set .rs ∉ writeTextEvents s.cfgDelay c0 c1 c2 c3 := fun h => by
    simpa [hshift] using writeTextEvents_subset s.cfgDelay c0 c1 c2 c3 h
  have hreg (v : Byte) : Event.set .rs ∈ writeReg0Events s.cfgDelay v := by simp [writeReg0Events]
  cases i with
  | generateClock | initFraming => simp [eventsIn, events, pulseEvents, initFramingEvents]
  | write b => simpa [eventsIn, events] using hwrite b
  | writeArray b0 b1 b2 b3 b4 => simpa [eventsIn, events] using harray ⟨b0, b1, b2, b3, b4⟩
  | writeChar ch => simpa [eventsIn, events, writeCharEvents] using harray (glyph ch)
  | writeText | updateText => simp [eventsIn, events, htext]
  | writeReg0 | updateBrightness => simp [eventsIn, events, hreg]
  | init => simp [eventsIn, events, initEvents, hreg]

end Sys2Proof.Machine
end

section
/-! PROOFS. Family 20_memory: the entries of the glyph ROM that are known (R26 to R28). -/

namespace Sys2Proof.Machine

/-- `MAPPED48`, read from the negative side: a code outside the letters, the digits, the space and the symbols (R28). -/
theorem isMapped48_eq_false {ch : Byte} (hletter : ¬ (0x41 ≤ ch.toNat ∧ ch.toNat ≤ 0x5A))
    (hdigit : ¬ (0x30 ≤ ch.toNat ∧ ch.toNat ≤ 0x39)) (hsymbol : ch ∉ Config.blankChar :: mappedSymbols) :
    isMapped48 ch = false := by
  obtain ⟨hblank, hother⟩ : ch ≠ Config.blankChar ∧ ch ∉ mappedSymbols := by simpa using hsymbol
  simp only [isMapped48, ← Bool.decide_and, decide_eq_false hletter, decide_eq_false hdigit, beq_false_of_ne hblank,
    List.contains_eq_mem, decide_eq_false hother, Bool.or_false]

/-- `MAPPED` and `MAPPED48` differ about the backtick only (R28). -/
theorem isMapped_of_ne_backtick {ch : Byte} (h : ch ≠ Config.backtick) : isMapped ch = isMapped48 ch := by
  simp [isMapped, h]

/-- The space has an entry of its own, five zeros (P1). -/
theorem glyph_blankChar : glyph Config.blankChar = ⟨0, 0, 0, 0, 0⟩ := by
  have hmapped : isMapped Config.blankChar = true :=
    (isMapped_of_ne_backtick (by decide)).trans (by decide)
  simp [glyph, hmapped, tableEntry]

/-- The glyph of 'X' is the entry that the fallback reads (R26). -/
theorem glyph_unknownChar : glyph Config.unknownChar = tableEntry Config.unknownChar := ite_self _

/-- A code that is neither in `MAPPED48` nor the backtick is sent as 'X' is (P2). -/
theorem glyph_of_unmapped {ch : Byte} (hunmapped : isMapped48 ch = false) (hbacktick : ch ≠ Config.backtick) :
    glyph ch = glyph Config.unknownChar := by
  obtain ⟨hmapped, -⟩ | ⟨-, hfallback⟩ := glyph_cases ch
  · simp [isMapped_of_ne_backtick hbacktick, hunmapped] at hmapped
  · exact hfallback.trans glyph_unknownChar.symm

/-- Settles O34: the space has its entry, and a code outside the listed ones falls back to 'X'. -/
theorem glyphKnownEntries : Obligations.GlyphKnownEntries :=
  ⟨glyph_blankChar, fun _ hletter hdigit hsymbol hbacktick =>
    glyph_of_unmapped (isMapped48_eq_false hletter hdigit hsymbol) hbacktick⟩

end Sys2Proof.Machine
end

section
/-! PROOFS. Family 30_encoding: the words that decode, the reserved words, and what a step does with one (R41 to R45). -/

namespace Sys2Proof

/-! ### The opcode map -/

theorem extractLsb'_opcode (w : CmdWord) : w.extractLsb' 40 8 = opcodeField w := rfl

/-- The row that a word selects has the word's opcode (R42). -/
theorem opcodeField_of_selectRow {w : CmdWord} {i : Instr} (h : selectRow w = some i) : opcodeField w = i.opcode := by
  unfold selectRow at h
  apply BitVec.eq_of_toNat_eq
  split at h <;> cases h <;> assumption

/-- The opcodes without a row (R45). -/
theorem selectRow_eq_none_iff (w : CmdWord) :
    selectRow w = none ↔ (opcodeField w).toNat = 0x00 ∨ 0x0B ≤ (opcodeField w).toNat := by
  unfold selectRow
  split
  case h_11 =>
    simp only [imp_false, true_iff] at *
    omega
  all_goals simp [*]

/-- The command of the selected row packs back to the word when the must-be-zero bits of its format are zero (R41). -/
theorem encode_of_selectRow {w : CmdWord} {i : Instr} (h : selectRow w = some i) (hpad : paddingZero i.format w = true) :
    encode i = w := by
  have hfields : encode i = packWord i.opcode (p0Field w) (p1Field w) (p2Field w) (p3Field w) (p4Field w) := by
    unfold selectRow at h
    split at h <;> cases h
    all_goals
      simp only [Instr.format, paddingZero_n, paddingZero_b, paddingZero_t] at hpad
      simp [encode, hpad]
  rw [hfields, ← opcodeField_of_selectRow h, packWord_fields]

theorem opcode_toNat_pos (i : Instr) : 0 < i.opcode.toNat := by
  cases i <;> simp [Instr.opcode]

/-- The public operations are the rows from 0x08 on (R42, R43). -/
theorem isPublic_iff_opcode (i : Instr) : i.isPublic = true ↔ 0x07 < i.opcode.toNat := by
  cases i <;> simp [Instr.isPublic, Instr.opcode]

/-! ### What decodes, and what is reserved -/

/-- A word without a row is reserved, whether the primitives are exposed or not (R45). -/
theorem decodeWith_of_none {w : CmdWord} (h : selectRow w = none) (exposed : Bool) :
    decodeWith exposed w = .reserved (.opcode (opcodeField w)) := by
  simp only [decodeWith, h]

/-- A word with a row is that row's command if the block exposes it and the padding is zero, else reserved (R43, R45). -/
theorem decodeWith_of_some {w : CmdWord} {i : Instr} (h : selectRow w = some i) (exposed : Bool) :
    decodeWith exposed w =
      if i.wfWith exposed then
        if paddingZero i.format w then .instr i else .reserved (.padding (opcodeField w))
      else .reserved (.hidden (opcodeField w)) := by
  simp only [decodeWith, h]

/-- In this block, which exposes every row (R5), only the padding decides about a word with a row. -/
theorem decode_of_some {w : CmdWord} {i : Instr} (h : selectRow w = some i) :
    decode w = if paddingZero i.format w then .instr i else .reserved (.padding (opcodeField w)) :=
  decodeWith_of_some h true

/-- A block that hides the primitives has the public operations only (R43). -/
theorem wfWith_false (i : Instr) : i.wfWith false = i.isPublic := rfl

theorem selectRow_of_decode {w : CmdWord} {i : Instr} (h : decode w = .instr i) :
    selectRow w = some i ∧ paddingZero i.format w = true := by
  cases hrow : selectRow w with
  | none => cases (decodeWith_of_none hrow true).symm.trans h
  | some j =>
    rw [decode_of_some hrow] at h
    split at h
    case isTrue hpad => cases h; exact ⟨rfl, hpad⟩
    case isFalse => cases h

/-- Settles O1. -/
theorem decodeEncodeIsIdentity : Obligations.DecodeEncodeIsIdentity := decode_encode

/-- Settles O2: a word that decodes selects the command's row, and its padding is zero. -/
theorem encodeDecodeIsIdentity : Obligations.EncodeDecodeIsIdentity := by
  intro w i hdecode
  obtain ⟨hrow, hpad⟩ := selectRow_of_decode hdecode
  exact encode_of_selectRow hrow hpad

/-- Settles O4: without exposed primitives a row is hidden unless it is public, which its opcode tells. -/
theorem hiddenPrimitivesAreReserved : Obligations.HiddenPrimitivesAreReserved := by
  intro w
  rw [extractLsb'_opcode]
  cases hrow : selectRow w with
  | none =>
    have hreserved := decodeWith_of_none hrow
    exact ⟨fun _ _ => ⟨_, hreserved false⟩, fun _ => (hreserved false).trans (hreserved true).symm⟩
  | some i =>
    rw [opcodeField_of_selectRow hrow, decodeWith_of_some hrow, decode_of_some hrow, wfWith_false]
    constructor
    · intro _ hop
      have hhidden : ¬ i.isPublic = true := by rw [isPublic_iff_opcode]; omega
      exact ⟨_, if_neg hhidden⟩
    · intro hop
      have hpos := opcode_toNat_pos i
      have hpublic : i.isPublic = true := by rw [isPublic_iff_opcode]; omega
      exact if_pos hpublic

/-- Settles O5: each word is the command's own. -/
theorem specWordsDecode : Obligations.SpecWordsDecode :=
  ⟨decode_encode .generateClock, decode_encode (.write 0xB0), decode_encode (.writeArray 0x01 0x02 0x03 0x04 0x05),
    decode_encode (.writeChar 0x58), decode_encode (.writeReg0 0x4F), decode_encode (.writeText 0x54 0x45 0x53 0x54),
    decode_encode .initFraming, decode_encode .init, decode_encode (.updateBrightness 20),
    decode_encode (.updateText 0x41 0x62 0x00 0x20)⟩

end Sys2Proof

namespace Sys2Proof.Machine

/-! ### The step with a reserved word at the port -/

theorem step_of_reserved {s : State} {w : CmdWord} {ws : List CmdWord} {why : Reserved} (hseq : s.seq = .idle)
    (hport : s.hostWords = w :: ws) (hdecode : decode w = .reserved why) : step s = .refused (.reservedWord why) := by
  simp only [step, takeCommand, hseq, hport, hdecode]

theorem step_of_noWord {s : State} (hseq : s.seq = .idle) (hport : s.hostWords = []) : step s = .next s := by
  simp only [step, takeCommand, hseq, hport]

theorem smallStep_ne_refused (i : Instr) (k : Nat) (s : State) (r : Refusal) : smallStep i k s ≠ .refused r := by
  unfold smallStep
  split <;> simp

/-- Settles O3: a word without a row is reserved by its opcode, a word with a row by its padding only. -/
theorem reservedWordsAreRefused : Obligations.ReservedWordsAreRefused := by
  intro w
  refine ⟨?_, fun s ws why hseq hport hdecode => step_of_reserved hseq hport hdecode⟩
  rw [extractLsb'_opcode]
  cases hrow : selectRow w with
  | none =>
    have hop := (selectRow_eq_none_iff w).mp hrow
    exact iff_of_true ⟨_, decodeWith_of_none hrow true⟩ (hop.imp_right .inl)
  | some i =>
    have hreserved : (∃ why, decode w = .reserved why) ↔ paddingZero i.format w = false := by
      cases hpad : paddingZero i.format w <;> simp [decode_of_some hrow, hpad]
    rw [hreserved, opcodeField_of_selectRow hrow]
    cases i <;> simp [Instr.opcode, Instr.format, paddingZero]

/-- Settles O19: every other case of a step answers a next state or faults. -/
theorem refusalOnlyOfReservedWord : Obligations.RefusalOnlyOfReservedWord := by
  intro s r h
  cases hseq : s.seq with
  | busy i k => exact absurd ((step_of_busy hseq).symm.trans h) (smallStep_ne_refused i k s r)
  | idle =>
    cases hport : s.hostWords with
    | nil => cases (step_of_noWord hseq hport).symm.trans h
    | cons w ws =>
      cases hdecode : decode w with
      | reserved why =>
        cases (step_of_reserved hseq hport hdecode).symm.trans h
        exact ⟨rfl, w, ws, why, rfl, hdecode, rfl⟩
      | instr i =>
        cases hgrain : s.grain with
        | bigStep => simp [step_of_bigStep hseq hgrain hport hdecode, exec_eq_program] at h
        | smallStep => simp [step_of_smallStep hseq hgrain hport hdecode] at h

end Sys2Proof.Machine
end

section
/-! PROOFS. Family 30_encoding: a command printed as a line of text reads back (R48). -/

namespace Sys2Proof.Machine

/-! ### A byte -/

theorem hexDigit_hexChar {n : Nat} (h : n < 16) : hexDigit (hexChar n) = some n := by
  interval_cases n <;> rfl

theorem readByte_showByte (b : Byte) (rest : List Char) : readByte (showByte b ++ rest) = some (b, rest) := by
  have hhigh : hexDigit (hexChar (b.toNat / 16)) = some (b.toNat / 16) := hexDigit_hexChar (by have := b.isLt; omega)
  have hlow : hexDigit (hexChar (b.toNat % 16)) = some (b.toNat % 16) := hexDigit_hexChar (by omega)
  have hvalue : BitVec.ofNat 8 (b.toNat / 16 * 16 + b.toNat % 16) = b := by
    rw [Nat.div_add_mod', BitVec.ofNat_toNat, BitVec.setWidth_eq]
  simp [showByte, readByte, hhigh, hlow, hvalue]

/-- A printed byte is read as an operand of either kind: it opens with no single quote. -/
theorem readOperand_showByte (isChar : Bool) (b : Byte) (rest : List Char) :
    readOperand isChar (showByte b ++ rest) = some (b, rest) := by
  have hquote : ('0' == squote) = false := by decide
  rw [← readByte_showByte b rest]
  simp [showByte, readOperand, hquote]

/-! ### The operands -/

/-- The operands after the first as `showOperands` prints them: a comma and a space before each. -/
def showMore (bs : List Byte) : List Char := bs.flatMap fun b => ',' :: ' ' :: showByte b

theorem showOperands_cons (b : Byte) (bs : List Byte) : showOperands (b :: bs) = ' ' :: showByte b ++ showMore bs := by
  induction bs generalizing b with
  | nil => simp [showOperands, showMore]
  | cons c bs ih => simp [showOperands, ih, showMore]

@[simp] theorem skipBlanks_space (cs : List Char) : skipBlanks (' ' :: cs) = skipBlanks cs := rfl

@[simp] theorem skipBlanks_showByte (b : Byte) (rest : List Char) :
    skipBlanks (showByte b ++ rest) = showByte b ++ rest := rfl

theorem readMore_showMore (isChar : Bool) (bs : List Byte) : readMore isChar bs.length (showMore bs) = some (bs, []) := by
  induction bs with
  | nil => rfl
  | cons b bs ih =>
    have hcomma : skipBlanks (showMore (b :: bs)) = ',' :: ' ' :: (showByte b ++ showMore bs) := rfl
    simp [readMore, hcomma, readOperand_showByte, ih]

theorem readOperands_showOperands (isChar : Bool) (bs : List Byte) :
    readOperands isChar bs.length (showOperands bs) = some (bs, []) := by
  cases bs with
  | nil => rfl
  | cons b bs => simp [showOperands_cons, readOperands, readOperand_showByte, readMore_showMore]

/-- Printed operands are no string: they open with no double quote. -/
theorem readString_showOperands (bs : List Byte) : readString (showOperands bs) = none := by
  have hquote : ('0' == dquote) = false := by decide
  cases bs with
  | nil => rfl
  | cons b bs =>
    rw [showOperands_cons, readString, List.cons_append, skipBlanks_space, skipBlanks_showByte]
    split
    · rename_i h
      obtain ⟨rfl, -⟩ := List.cons.inj h
      simp [hquote]
    · rfl

theorem readArguments_showOperands {m : Mnemonic} {bs : List Byte} (h : (operandShape m).1 = bs.length) :
    readArguments m (showOperands bs) = some (bs, []) := by
  simp [readArguments, readString_showOperands, h, readOperands_showOperands]

/-! ### The mnemonic -/

/-- No two mnemonics have the same letters. -/
theorem find?_mnemonicText (m : Mnemonic) :
    allMnemonics.find? (fun k => mnemonicText k == mnemonicText m) = some m := by
  cases m <;> simp [allMnemonics, mnemonicText]

theorem isWordChar_of_mem_mnemonicText (m : Mnemonic) : ∀ c ∈ mnemonicText m, isWordChar c = true := by
  cases m <;> simp [mnemonicText, isWordChar, isBlankChar]

theorem skipBlanks_mnemonicText (m : Mnemonic) (rest : List Char) :
    skipBlanks (mnemonicText m ++ rest) = mnemonicText m ++ rest := by
  cases m <;> rfl

theorem lineEnds_mnemonicText (m : Mnemonic) (rest : List Char) : lineEnds (mnemonicText m ++ rest) = false := by
  cases m <;> rfl

/-- Printed operands open with a space or are none, so the first word of the line is the mnemonic. -/
theorem firstWord_mnemonicText (m : Mnemonic) (bs : List Byte) :
    firstWord (mnemonicText m ++ showOperands bs) = (mnemonicText m, showOperands bs) := by
  have hword := isWordChar_of_mem_mnemonicText m
  have hspace : isWordChar ' ' = false := by decide
  rw [firstWord, List.takeWhile_append_of_pos hword, List.dropWhile_append_of_pos hword]
  cases bs with
  | nil => simp [showOperands]
  | cons b bs => simp [showOperands_cons, hspace]

/-! ### The line -/

theorem assemble_disassemble (i : Instr) : assemble (disassemble i).1 (disassemble i).2 = some i := by
  cases i <;> rfl

theorem operandShape_disassemble (i : Instr) : (operandShape (disassemble i).1).1 = (disassemble i).2.length := by
  cases i <;> rfl

/-- Settles O6: the mnemonic is the first word, the operands are read one by one, and nothing is left of the line. -/
theorem textReadsBack : Obligations.TextReadsBack := by
  intro i
  have harguments := readArguments_showOperands (operandShape_disassemble i)
  have hend : lineEnds [] = true := rfl
  simp [parseLine, showInstr, lineEnds_mnemonicText, skipBlanks_mnemonicText, firstWord_mnemonicText,
    find?_mnemonicText, harguments, hend, assemble_disassemble]

end Sys2Proof.Machine
end

section
/-! PROOFS. Family 40_clock_and_shift: the pulse, the shift register through the rounds of `WRITE`, and what `WRITE` puts on
the wire (R50 to R54). -/

namespace Sys2Proof.Machine

/-! ### What a program leaves alone among the working registers -/

/-- What every line of a program keeps, the program keeps: the induction over a program, once. -/
theorem runProg_keeps {α : Type} {f : State → α} {p : List Micro} (h : ∀ m ∈ p, ∀ s, f (runMicro m s) = f s)
    (s : State) : f (runProg p s) = f s := by
  induction p generalizing s with
  | nil => rw [runProg_nil]
  | cons m p ih =>
    obtain ⟨hm, hp⟩ := List.forall_mem_cons.mp h
    rw [runProg_cons, ih hp, hm]

theorem runMicro_colcnt {m : Micro} (h : ∀ v, m ≠ .colcnt v) (s : State) : (runMicro m s).colcnt = s.colcnt := by
  cases m with
  | colcnt v => exact absurd rfl (h v)
  | driveDin => simp [runMicro]
  | _ => rfl

theorem runMicro_chrcnt {m : Micro} (h : ∀ v, m ≠ .chrcnt v) (s : State) : (runMicro m s).chrcnt = s.chrcnt := by
  cases m with
  | chrcnt v => exact absurd rfl (h v)
  | driveDin => simp [runMicro]
  | _ => rfl

theorem runProg_colcnt {p : List Micro} (h : ∀ v, .colcnt v ∉ p) (s : State) : (runProg p s).colcnt = s.colcnt :=
  runProg_keeps (f := State.colcnt) (fun _ hm => runMicro_colcnt fun v hv => h v (hv ▸ hm)) s

theorem runProg_chrcnt {p : List Micro} (h : ∀ v, .chrcnt v ∉ p) (s : State) : (runProg p s).chrcnt = s.chrcnt :=
  runProg_keeps (f := State.chrcnt) (fun _ hm => runMicro_chrcnt fun v hv => h v (hv ▸ hm)) s

@[simp] theorem runProg_writeProg_colcnt (b : Byte) (s : State) : (runProg (writeProg b) s).colcnt = s.colcnt :=
  runProg_colcnt (by simp [writeProg, writeBitProg, generateClockProg]) s

@[simp] theorem runProg_writeProg_chrcnt (b : Byte) (s : State) : (runProg (writeProg b) s).chrcnt = s.chrcnt :=
  runProg_chrcnt (by simp [writeProg, writeBitProg, generateClockProg]) s

/-! ### The shift register -/

/-- Each round of `WRITE` shifts `SR` by one place (R54). -/
theorem runProg_rounds_sr (js : List (BitVec 3)) (s : State) :
    (runProg (js.flatMap writeBitProg) s).sr = s.sr <<< js.length := by
  induction js generalizing s with
  | nil => simp
  | cons j js ih =>
    rw [List.flatMap_cons, runProg_append, ih, runProg_writeBitProg_sr, ← BitVec.shiftLeft_add, List.length_cons,
      Nat.add_comm]

/-- The eight shifts of `WRITE` push the whole byte out of `SR` (R52). -/
@[simp] theorem runProg_writeProg_sr (b : Byte) (s : State) : (runProg (writeProg b) s).sr = 0 := by
  have hrounds : (runProg (bitLoop.flatMap writeBitProg) (putSr b s)).sr = b <<< 8 := runProg_rounds_sr bitLoop _
  rw [writeProg, runProg_append, runProg_append]
  exact hrounds.trans (BitVec.shiftLeft_eq_zero le_rfl)

/-- The top bit of a byte shifted left `k` times (R54). -/
theorem msb_shiftLeft_byte (b : Byte) {k : Nat} (h : k < 8) : (b <<< k).msb = b.getLsbD (7 - k) := by
  rw [BitVec.msb, BitVec.getMsbD_shiftLeft, BitVec.getMsbD_eq_getLsbD]
  simp [h]

/-- Settles O29: `k` rounds shift `SR` by `k` places. -/
theorem shiftRegisterAfterRounds : Obligations.ShiftRegisterAfterRounds := by
  intro s b k hk
  have hlength : (bitLoop.take k).length = k := List.length_take_of_le hk
  have hsr : (runProg (.loadSr b :: (bitLoop.take k).flatMap writeBitProg) s).sr = b <<< k := by
    rw [runProg_cons, runProg_rounds_sr, hlength]
    rfl
  exact ⟨hsr, fun hlt => hsr ▸ msb_shiftLeft_byte b hlt⟩

/-! ### Running the two operations -/

/-- `GENERATE_CLOCK` writes the trace and `CLK` only (R50). -/
theorem runProg_generateClockProg (s : State) : runProg generateClockProg s =
    { s with trace := s.trace ++ pulseEvents s.cfgDelay, lines := { s.lines with clk := .low } } := rfl

/-- Settles O26. -/
theorem generateClockResult : Obligations.GenerateClockResult :=
  fun s => congrArg Host.Outcome.next (runProg_generateClockProg s)

/-- Settles O28: the events and the levels of any command, and `WRITE`'s own working registers. -/
theorem writeResult : Obligations.WriteResult := by
  intro s b
  refine ⟨_, exec_eq_program (.write b) s, ?_, ?_, runProg_writeProg_sr b s, runProg_writeProg_colcnt b s,
    runProg_writeProg_chrcnt b s, runProg_control _ s⟩
  · rw [runProg_trace, issued_program, List.append_assoc]
    rfl
  · rw [runProg_lines, issued_program]
    exact applyEvents_writeEvents s.lines s.cfgDelay b

/-! ### What the receiver samples -/

/-- The receiver samples later events at the levels that the earlier ones leave (R31). -/
theorem sampled_append (xs ys : List Event) (L : Lines) :
    sampled (xs ++ ys) L = sampled xs L ++ sampled ys (applyEvents L xs) := by
  induction xs generalizing L with
  | nil => rfl
  | cons x xs ih =>
    rw [List.cons_append, applyEvents_cons, sampled, sampled, ih]
    split <;> rfl

/-- Of a pulse only its `Set(CLK)` samples, and it meets `CLK` low whatever the level before (R51). -/
@[simp] theorem sampled_pulseEvents (d : Nat) (L : Lines) : sampled (pulseEvents d) L = [⟨L.ce, L.rs, L.din⟩] := rfl

/-- Settles O27. -/
theorem pulseHasOneRisingEdge : Obligations.PulseHasOneRisingEdge :=
  fun s L => sampled_pulseEvents s.cfgDelay L

/-- A round of `WRITE` samples the bit it drives (R53). -/
theorem sampled_bit (d : Nat) (b : Bool) (L : Lines) :
    sampled (dinEvent b :: pulseEvents d) L = [⟨L.ce, L.rs, bitLevel b⟩] := by
  cases b <;> rfl

/-- Rounds sample their bits in order, with `CE` and `RS` as the first round finds them (R53). -/
theorem sampled_bits (d : Nat) (bs : List Bool) (L : Lines) :
    sampled (bs.flatMap fun b => dinEvent b :: pulseEvents d) L = bs.map fun b => ⟨L.ce, L.rs, bitLevel b⟩ := by
  induction bs generalizing L with
  | nil => rfl
  | cons b bs ih =>
    rw [List.flatMap_cons, sampled_append, sampled_bit, applyEvents_bit, ih]
    rfl

/-- What a byte is on the wire: its bits, bit 7 first, under one `CE` and `RS`; the closing `Clear(DIN)` samples nothing
(R52, R53). -/
@[simp] theorem sampled_writeEvents (d : Nat) (b : Byte) (L : Lines) :
    sampled (writeEvents d b) L = (byteLevels b).map fun v => ⟨L.ce, L.rs, v⟩ := by
  have hbits := sampled_bits d (([7, 6, 5, 4, 3, 2, 1, 0] : List Nat).map b.getLsbD) L
  rw [List.flatMap_map] at hbits
  rw [writeEvents, sampled_append, hbits]
  rfl

/-- Settles O30. -/
theorem writeOnTheWire : Obligations.WriteOnTheWire :=
  fun s b L => sampled_writeEvents s.cfgDelay b L

end Sys2Proof.Machine
end

section
/-! PROOFS. Family 41_column_and_glyph: what `WRITE_ARRAY` does and what it puts on the wire, and `WRITE_CHAR` as
`WRITE_ARRAY` of its glyph (R55 to R58). -/

namespace Sys2Proof.Machine

/-! ### `WRITE_ARRAY` -/

@[simp] theorem runProg_writeArrayProg_chrcnt (g : Glyph) (s : State) :
    (runProg (writeArrayProg g) s).chrcnt = s.chrcnt :=
  runProg_chrcnt (by simp [writeArrayProg, colLoop, writeProg, writeBitProg, generateClockProg]) s

/-- What running `WRITE_ARRAY` does: its events, `DIN` and `CLK` low, and nothing else but `SR`, `BITCNT` and `COLCNT`
(R55). -/
theorem exec_writeArray_spec (s : State) (b0 b1 b2 b3 b4 : Byte) :
    ∃ t, exec (.writeArray b0 b1 b2 b3 b4) s = .next t ∧
      t.trace = s.trace ++ eventsIn s (.writeArray b0 b1 b2 b3 b4) ∧
      t.lines = { s.lines with din := .low, clk := .low } ∧ t.chrcnt = s.chrcnt ∧ SameControl s t := by
  refine ⟨_, exec_eq_program _ s, ?_, ?_, runProg_writeArrayProg_chrcnt _ s, runProg_control _ s⟩
  · rw [runProg_trace, issued_program]
  · rw [runProg_lines, issued_program]
    exact applyEvents_writeArrayEvents s.lines s.cfgDelay _

/-- The events of `WRITE_ARRAY` are those of its five `WRITE`s, in order (R55). -/
theorem eventsIn_writeArray (s : State) (b0 b1 b2 b3 b4 : Byte) : eventsIn s (.writeArray b0 b1 b2 b3 b4) =
    eventsIn s (.write b0) ++ eventsIn s (.write b1) ++ eventsIn s (.write b2) ++ eventsIn s (.write b3) ++
      eventsIn s (.write b4) := by
  simp [eventsIn, events, writeArrayEvents, Glyph.bytes]

/-- Settles O31. -/
theorem writeArrayResult : Obligations.WriteArrayResult := by
  intro s b0 b1 b2 b3 b4
  rw [← eventsIn_writeArray]
  exact exec_writeArray_spec s b0 b1 b2 b3 b4

/-- Bytes written one after another sample their bits in order, all under the `CE` and `RS` that the first one finds: a
`WRITE` leaves both alone (R52, R56). -/
theorem sampled_flatMap_writeEvents (d : Nat) (bs : List Byte) (L : Lines) :
    sampled (bs.flatMap (writeEvents d)) L = (bs.flatMap byteLevels).map fun v => ⟨L.ce, L.rs, v⟩ := by
  induction bs generalizing L with
  | nil => rfl
  | cons b bs ih =>
    rw [List.flatMap_cons, sampled_append, sampled_writeEvents, applyEvents_writeEvents, ih, List.flatMap_cons,
      List.map_append]

/-- What a glyph is on the wire: its 40 bits under one `CE` and `RS` (R56). -/
@[simp] theorem sampled_writeArrayEvents (d : Nat) (g : Glyph) (L : Lines) :
    sampled (writeArrayEvents d g) L = (glyphLevels g).map fun v => ⟨L.ce, L.rs, v⟩ :=
  sampled_flatMap_writeEvents d g.bytes L

/-- Settles O32: the `DIN` levels of the samples are the bits of the five bytes. -/
theorem writeArrayOnTheWire : Obligations.WriteArrayOnTheWire := by
  intro s b0 b1 b2 b3 b4 L
  have hdin := congrArg (List.map Sample.din) (sampled_writeArrayEvents s.cfgDelay ⟨b0, b1, b2, b3, b4⟩ L)
  rw [List.map_map] at hdin
  exact hdin.trans (List.map_id _)

/-! ### `WRITE_CHAR` -/

/-- `WRITE_CHAR` is `WRITE_ARRAY` of its glyph (R57). -/
theorem exec_writeChar (ch : Byte) (s : State) : exec (.writeChar ch) s =
    exec (.writeArray (glyph ch).g0 (glyph ch).g1 (glyph ch).g2 (glyph ch).g3 (glyph ch).g4) s := rfl

/-- Settles O33: the run is that of `WRITE_ARRAY`, and the two known glyphs are those of the ROM. -/
theorem writeCharResult : Obligations.WriteCharResult := by
  intro s ch
  obtain ⟨t, ht, htrace, hlines, hchrcnt, hcontrol⟩ :=
    exec_writeArray_spec s (glyph ch).g0 (glyph ch).g1 (glyph ch).g2 (glyph ch).g3 (glyph ch).g4
  refine ⟨t, (exec_writeChar ch s).trans ht, htrace, glyph_of_unmapped, ?_, hlines, hchrcnt, hcontrol⟩
  rintro rfl
  exact glyph_blankChar

/-- Settles O35: what `WRITE_CHAR` does depends on the glyph only, and its events on the glyph and the configuration. -/
theorem writeCharProperties : Obligations.WriteCharProperties := by
  refine ⟨fun s s' ch hsame => eventsIn_congr hsame (.writeChar ch), fun s ch hunmapped hbacktick => ?_, fun s => ?_⟩
  · have hglyph : glyph ch = glyph 0x58 := glyph_of_unmapped hunmapped hbacktick
    obtain ⟨t, ht, -⟩ := exec_spec (.writeChar 0x58) s
    refine ⟨t, t, ?_, ht, rfl⟩
    rw [exec_writeChar, hglyph, ← exec_writeChar, ht]
  · have hglyph : glyph 0x20 = ⟨0, 0, 0, 0, 0⟩ := glyph_blankChar
    rw [exec_writeChar, hglyph]

end Sys2Proof.Machine
end

section
/-! PROOFS. Family 42_register_and_text_framing: what the two framed writers leave, what they put on the wire, and the
brightness byte (R60 to R63, R71). -/

namespace Sys2Proof.Machine

/-! ### What the framed writers leave -/

@[simp] theorem runProg_writeReg0Prog_colcnt (v : Byte) (s : State) : (runProg (writeReg0Prog v) s).colcnt = s.colcnt := by
  simp [writeReg0Prog, runProg_append, runMicro, setLine, clearLine, issueDelay]

@[simp] theorem runProg_writeReg0Prog_chrcnt (v : Byte) (s : State) : (runProg (writeReg0Prog v) s).chrcnt = s.chrcnt := by
  simp [writeReg0Prog, runProg_append, runMicro, setLine, clearLine, issueDelay]

/-- Settles O36: the levels are those that its events leave, and its program keeps the other two loop counters. -/
theorem writeReg0Result : Obligations.WriteReg0Result := by
  intro s v
  refine ⟨_, exec_eq_program (.writeReg0 v) s, ?_, ?_, runProg_writeReg0Prog_colcnt v s, runProg_writeReg0Prog_chrcnt v s,
    runProg_control _ s⟩
  · rw [runProg_trace, issued_program]
    rfl
  · rw [runProg_lines, issued_program]
    exact applyEvents_writeReg0Events s.lines s.cfgDelay v

/-- Settles O37: any command appends its events, and those of `WRITE_TEXT` write every line. -/
theorem writeTextResult : Obligations.WriteTextResult := by
  intro s c0 c1 c2 c3
  obtain ⟨t, ht, htrace, hlines, hcontrol⟩ := exec_spec (.writeText c0 c1 c2 c3) s
  exact ⟨t, ht, htrace, hlines.trans (applyEvents_writeTextEvents ..), hcontrol⟩

/-! ### One frame on the wire -/

/-- The framing that the two writers share (R64): they differ in the first event, in the bytes between, and in the line
cleared last. -/
def framed (d : Nat) (first : Event) (bs : List Byte) (last : Line) : List Event :=
  [first, .delay d, .clear .ce, .delay d] ++ bs.flatMap (writeEvents d) ++
    [.set .ce, .delay d, .clear .clk, .delay d, .clear last]

theorem writeReg0Events_eq_framed (d : Nat) (v : Byte) : writeReg0Events d v = framed d (.set .rs) [v] .rs := by
  simp [writeReg0Events, framed]

theorem writeTextEvents_eq_framed (d : Nat) (c0 c1 c2 c3 : Byte) : writeTextEvents d c0 c1 c2 c3 =
    framed d (.clear .rs) ((glyph c0).bytes ++ (glyph c1).bytes ++ (glyph c2).bytes ++ (glyph c3).bytes) .din := by
  simp [writeTextEvents, writeCharEvents, writeArrayEvents, framed]

/-- A frame whose events all find `RS` at one level has the address that this level selects (R12, R31). -/
theorem frameAddress_replicate (n : Nat) (L : Lines) : frameAddress (List.replicate (n + 1) L.rs) = addressing L := by
  cases hrs : L.rs <;> simp [frameAddress, addressing, hrs, List.replicate_succ]

section
variable {d : Nat} {e : Event} (h : e ∈ shiftEvents d) (L : Lines)
include h

/-- Shifting bytes out leaves `RS` alone (R52). -/
theorem applyEvent_rs_of_shift : (applyEvent L e).rs = L.rs := by
  simp only [shiftEvents, List.mem_cons, List.not_mem_nil, or_false] at h
  obtain rfl | rfl | rfl | rfl | rfl := h <;> rfl

/-- Inside a frame an event with which bytes are shifted out keeps the frame open, finds `RS` as it was, and adds what it
samples to the payload (R31). -/
theorem framesFrom_shift_cons (es : List Event) (f : OpenFrame) : framesFrom (e :: es) L (some f) =
    framesFrom es (applyEvent L e) (some ⟨L.rs :: f.rs, f.payload ++ (sampled [e] L).map Sample.din⟩) := by
  have hopen : e ≠ .set .ce := by rintro rfl; simp [shiftEvents] at h
  cases hrise : isRise L e <;> simp [framesFrom, hopen, extendFrame, applyEvent_rs_of_shift h, sampled, hrise]

end

/-- An open frame in which bytes are shifted out until `Set(CE)` closes with the address that `RS` selects and with what was
sampled (R31). -/
theorem framesFrom_shift_close {d : Nat} {xs : List Event} (h : xs ⊆ shiftEvents d) (es : List Event) (L : Lines)
    (n : Nat) (payload : List Level) :
    framesFrom (xs ++ .set .ce :: es) L (some ⟨.replicate n L.rs, payload⟩) =
      ⟨addressing L, payload ++ (sampled xs L).map Sample.din⟩ ::
        framesFrom es (applyEvent (applyEvents L xs) (.set .ce)) none := by
  induction xs generalizing L n payload with
  | nil =>
    have haddress : frameAddress (L.rs :: .replicate n L.rs) = addressing L := frameAddress_replicate n L
    simp [framesFrom, extendFrame, isRise, applyEvent, putLevel, haddress, sampled]
  | cons x xs ih =>
    obtain ⟨hx, hxs⟩ := List.cons_subset.mp h
    have hrs : (applyEvent L x).rs = L.rs := applyEvent_rs_of_shift hx L
    have haddress : addressing (applyEvent L x) = addressing L := by simp only [addressing, hrs]
    have hsampled : sampled (x :: xs) L = sampled [x] L ++ sampled xs (applyEvent L x) := sampled_append [x] xs L
    rw [List.cons_append, framesFrom_shift_cons hx, ← List.replicate_succ, ← hrs, ih hxs, haddress, hsampled,
      List.map_append, List.append_assoc, applyEvents_cons]

theorem flatMap_writeEvents_subset (d : Nat) (bs : List Byte) : bs.flatMap (writeEvents d) ⊆ shiftEvents d := by
  intro e he
  obtain ⟨b, -, hb⟩ := List.mem_flatMap.mp he
  exact writeEvents_subset d b hb

section
variable {first : Event} (hfirst : first = .set .rs ∨ first = .clear .rs) (d : Nat) (bs : List Byte) (last : Line)
  (L : Lines)
include hfirst

/-- A framed sequence samples the bits of its bytes only, all with `CE` low and `RS` as the first event puts it (R63). -/
theorem sampled_framed : sampled (framed d first bs last) L =
    (bs.flatMap byteLevels).map fun v => ⟨.low, (applyEvent L first).rs, v⟩ := by
  have hopening : sampled [first, .delay d, .clear .ce, .delay d] L = [] := by obtain rfl | rfl := hfirst <;> rfl
  have hclosing (M : Lines) : sampled [.set .ce, .delay d, .clear .clk, .delay d, .clear last] M = [] := rfl
  rw [framed, sampled_append, sampled_append, hopening, hclosing, sampled_flatMap_writeEvents, List.nil_append,
    List.append_nil]
  rfl

/-- From `CE` not low a framed sequence puts one frame on the wire, at the address that its first event selects, with the
bits of its bytes (R63). -/
theorem frames_framed (hce : L.ce ≠ .low) : frames (framed d first bs last) L =
    [⟨addressing (applyEvent L first), bs.flatMap byteLevels⟩] := by
  have hopening (es : List Event) : frames ([first, .delay d, .clear .ce, .delay d] ++ es) L =
      framesFrom es (putLevel (applyEvent L first) .ce .low) (some ⟨.replicate 2 (applyEvent L first).rs, []⟩) := by
    obtain rfl | rfl := hfirst <;> simp [frames, framesFrom, extendFrame, isRise, applyEvent, putLevel, hce]
  have hclosing (M : Lines) : framesFrom [.delay d, .clear .clk, .delay d, .clear last] M none = [] := by
    simp [framesFrom]
  have hpayload (M : Lines) : (sampled (bs.flatMap (writeEvents d)) M).map Sample.din = bs.flatMap byteLevels := by
    rw [sampled_flatMap_writeEvents, List.map_map]
    exact List.map_id _
  rw [framed, List.append_assoc, hopening]
  refine (framesFrom_shift_close (flatMap_writeEvents_subset d bs) _ (putLevel (applyEvent L first) .ce .low) 2 []).trans ?_
  rw [hclosing, hpayload]
  rfl

end

/-- Settles O38: both writers are framed sequences of bytes, so each puts one frame on the wire. -/
theorem framedWritersOnTheWire : Obligations.FramedWritersOnTheWire := by
  intro s L hce
  refine ⟨fun v => ?_, fun c0 c1 c2 c3 => ?_⟩
  · have hframed : eventsIn s (.writeReg0 v) = _ := writeReg0Events_eq_framed s.cfgDelay v
    rw [hframed, frames_framed (.inl rfl) _ _ _ _ hce, sampled_framed (.inl rfl), List.flatMap_singleton]
    exact ⟨rfl, rfl⟩
  · have hframed : eventsIn s (.writeText c0 c1 c2 c3) = _ := writeTextEvents_eq_framed s.cfgDelay c0 c1 c2 c3
    rw [hframed, frames_framed (.inr rfl) _ _ _ _ hce, sampled_framed (.inr rfl)]
    simp only [List.flatMap_append]
    exact ⟨rfl, rfl⟩

/-! ### The brightness byte -/

/-- The clamp is the minimum with 15 (R65). -/
theorem toNat_clamp (v : Byte) : (clamp v).toNat = min v.toNat 15 := by
  obtain ⟨hle, hclamp⟩ | ⟨hgt, hclamp⟩ := clamp_cases v
  · rw [hclamp, min_eq_left hle]
  · rw [hclamp, min_eq_right hgt.le]
    rfl

/-- The sum of the mask and the clamped level does not wrap (R61). -/
theorem toNat_brightnessByte (v : Byte) : (brightnessByte v).toNat = 0x40 + min v.toNat 15 := by
  have hmask : Config.brightnessMask.toNat = 0x40 := rfl
  rw [brightnessByte, BitVec.toNat_add, toNat_clamp, hmask]
  exact Nat.mod_eq_of_lt (by omega)

/-- Settles O42: the clamped level stays below bit 6, the mask's one bit, so that the sum has no carry. -/
theorem brightnessByteIsSumAndOr : Obligations.BrightnessByteIsSumAndOr := by
  intro v
  have hsum := toNat_brightnessByte v
  have hor : 2 ^ 6 * 1 + (clamp v).toNat = 2 ^ 6 * 1 ||| (clamp v).toNat :=
    Nat.two_pow_add_eq_or_of_lt (by rw [toNat_clamp]; omega) 1
  refine ⟨hsum, by omega, BitVec.eq_of_toNat_eq ?_⟩
  rw [hsum, ← toNat_clamp, BitVec.toNat_or]
  exact hor

end Sys2Proof.Machine
end

section
/-! PROOFS. Family 43_session_controller: the clamp, `INIT_FRAMING`, the three public operations as calls of the framed
writers, and `INIT` on the wire (R65 to R72, R94). -/

namespace Sys2Proof.Machine

/-! ### The clamp and the brightness byte -/

theorem clamp_of_le {v : Byte} (h : v.toNat ≤ 15) : clamp v = v := by
  obtain ⟨-, hclamp⟩ | ⟨hgt, -⟩ := clamp_cases v
  · exact hclamp
  · omega

theorem toNat_clamp_le (v : Byte) : (clamp v).toNat ≤ 15 := by
  rw [toNat_clamp]
  exact min_le_right _ _

/-- Settles O41: what the clamp answers is in range, where the clamp changes nothing. -/
theorem clampSaturates : Obligations.ClampSaturates :=
  fun v => ⟨toNat_clamp v, clamp_of_le, clamp_of_le (toNat_clamp_le v)⟩

/-- The byte that R69 writes as a sum is the brightness byte. -/
theorem ofNat_eq_brightnessByte (v : Byte) : BitVec.ofNat 8 (0x40 + min v.toNat 15) = brightnessByte v := by
  rw [← toNat_brightnessByte, BitVec.ofNat_toNat, BitVec.setWidth_eq]

/-- The clamped level takes the low four bits only (R65). -/
theorem getLsbD_clamp_eq_false (v : Byte) {i : Nat} (h : 4 ≤ i) : (clamp v).getLsbD i = false := by
  have hpow : 2 ^ 4 ≤ 2 ^ i := Nat.pow_le_pow_right (by omega) h
  have hle := toNat_clamp_le v
  exact Nat.testBit_lt_two_pow (by omega)

/-- The brightness byte on the wire: the mask's bits above the four bits of the level (R61, R71). -/
theorem byteLevels_brightnessByte (v : Byte) : byteLevels (brightnessByte v) =
    [.low, .high, .low, .low] ++ ([3, 2, 1, 0] : List Nat).map fun i => bitLevel ((clamp v).getLsbD i) := by
  obtain ⟨-, -, hor⟩ := brightnessByteIsSumAndOr v
  simp [byteLevels, hor, getLsbD_clamp_eq_false, bitLevel, -BitVec.getLsbD_eq_getElem]

/-! ### `INIT_FRAMING`, and what the primitives leave alone -/

/-- `INIT_FRAMING` writes the trace and three lines only (R66). -/
theorem runProg_initFramingProg (s : State) : runProg initFramingProg s =
    { s with trace := s.trace ++ initFramingEvents, lines := { s.lines with ce := .high, clk := .low, din := .low } } :=
  rfl

/-- Settles O43. -/
theorem initFramingResult : Obligations.InitFramingResult :=
  fun s => congrArg Host.Outcome.next (runProg_initFramingProg s)

/-- Shifting bytes out writes neither `CE` nor `RS` (R94). -/
theorem writesLine_of_mem_shiftEvents {d : Nat} {e : Event} (h : e ∈ shiftEvents d) :
    writesLine .ce e = false ∧ writesLine .rs e = false := by
  simp only [shiftEvents, List.mem_cons, List.not_mem_nil, or_false] at h
  obtain rfl | rfl | rfl | rfl | rfl := h <;> exact ⟨rfl, rfl⟩

/-- Settles O40: the unframed primitives have only the events with which bytes are shifted out. -/
theorem primitivesDoNoFraming : Obligations.PrimitivesDoNoFraming := by
  intro s i e he
  refine ⟨fun hi => writesLine_of_mem_shiftEvents (d := s.cfgDelay) ?_, ?_⟩
  · obtain rfl | ⟨b, rfl⟩ | ⟨b0, b1, b2, b3, b4, rfl⟩ | ⟨ch, rfl⟩ := hi
    · exact pulseEvents_subset _ he
    · exact writeEvents_subset _ b he
    · exact writeArrayEvents_subset _ _ he
    · exact writeArrayEvents_subset _ (glyph ch) he
  · rintro rfl
    have hmem : e ∈ initFramingEvents := he
    simp only [initFramingEvents, List.mem_cons, List.not_mem_nil, or_false] at hmem
    obtain rfl | rfl | rfl := hmem <;> rfl

/-! ### The public operations -/

/-- The events of a public operation write every line, last to its idle level (R72). -/
theorem applyEvents_eventsIn_of_isPublic {i : Instr} (h : i.isPublic = true) (s : State) (L : Lines) :
    applyEvents L (eventsIn s i) = idleBus := by
  cases i with
  | init => exact applyEvents_initEvents L s.cfgDelay s.cfgBright
  | updateBrightness v => exact applyEvents_writeReg0Events L s.cfgDelay (brightnessByte v)
  | updateText c0 c1 c2 c3 => exact applyEvents_writeTextEvents L s.cfgDelay c0 c1 c2 c3
  | _ => cases h

/-- What running a public operation does: its events, the idle bus state, and nothing else but the working registers. -/
theorem exec_public_spec {i : Instr} (h : i.isPublic = true) (s : State) : ∃ t, exec i s = .next t ∧
    t.trace = s.trace ++ eventsIn s i ∧ t.lines = idleBus ∧ SameControl s t := by
  obtain ⟨t, ht, htrace, hlines, hcontrol⟩ := exec_spec i s
  exact ⟨t, ht, htrace, hlines.trans (applyEvents_eventsIn_of_isPublic h s s.lines), hcontrol⟩

/-- Settles O48. -/
theorem publicOperationsEndIdle : Obligations.PublicOperationsEndIdle := by
  intro s i hpublic
  obtain ⟨t, ht, -, hlines, -⟩ := exec_public_spec hpublic s
  refine ⟨t, ht, ?_⟩
  rw [hlines]
  exact ⟨rfl, rfl, rfl⟩

/-- `INIT` has the events of the framing and of its two frames, in order (R67). -/
theorem eventsIn_init (s : State) : eventsIn s .init = initFramingEvents ++
    eventsIn s (.writeText 0x20 0x20 0x20 0x20) ++ eventsIn s (.writeReg0 (brightnessByte s.cfgBright)) := rfl

/-- Settles O44. -/
theorem initResult : Obligations.InitResult := by
  intro s
  rw [ofNat_eq_brightnessByte]
  obtain ⟨t, ht, htrace, hrest⟩ := exec_public_spec (i := .init) rfl s
  rw [eventsIn_init] at htrace
  exact ⟨t, ht, htrace, hrest⟩

/-- Settles O46: the run is that of `WRITE_REG0` of the brightness byte. -/
theorem updateBrightnessResult : Obligations.UpdateBrightnessResult := by
  intro s v
  rw [ofNat_eq_brightnessByte]
  obtain ⟨t, ht, htrace, hlines, hcolcnt, hchrcnt, hcontrol⟩ := writeReg0Result s (brightnessByte v)
  have hbright : t.cfgBright = s.cfgBright := hcontrol.1.2.1
  exact ⟨t, ht, ht, htrace, hlines, hbright, hcolcnt, hchrcnt, hcontrol⟩

/-- Settles O47: the run is that of `WRITE_TEXT`. -/
theorem updateTextResult : Obligations.UpdateTextResult := by
  intro s c0 c1 c2 c3
  obtain ⟨t, ht, hrest⟩ := exec_public_spec (i := .updateText c0 c1 c2 c3) rfl s
  exact ⟨t, ht, ht, hrest⟩

/-! ### `INIT` on the wire -/

/-- The events end outside a frame: after the last `Set(CE)` no frame opens (R31). -/
def EndsOutsideFrame (xs : List Event) : Prop := ∃ us vs, xs = us ++ .set .ce :: vs ∧ .clear .ce ∉ vs

theorem endsOutsideFrame_initFramingEvents : EndsOutsideFrame initFramingEvents :=
  ⟨[], [.clear .clk, .clear .din], rfl, by simp⟩

theorem endsOutsideFrame_writeTextEvents (d : Nat) (c0 c1 c2 c3 : Byte) :
    EndsOutsideFrame (writeTextEvents d c0 c1 c2 c3) :=
  ⟨_, [.delay d, .clear .clk, .delay d, .clear .din], rfl, by simp⟩

/-- Outside a frame only `Clear(CE)` opens one (R31). -/
theorem framesFrom_none_append {xs : List Event} (h : .clear .ce ∉ xs) (ys : List Event) (L : Lines) :
    framesFrom (xs ++ ys) L none = framesFrom ys (applyEvents L xs) none := by
  induction xs generalizing L with
  | nil => rfl
  | cons x xs ih =>
    obtain ⟨hx, hxs⟩ : .clear .ce ≠ x ∧ .clear .ce ∉ xs := by simpa using h
    have hstay : framesFrom (x :: (xs ++ ys)) L none = framesFrom (xs ++ ys) (applyEvent L x) none := by
      simp [framesFrom, Ne.symm hx]
    rw [List.cons_append, hstay, ih hxs, applyEvents_cons]

/-- Events that end outside a frame leave no open frame to those that follow, whatever frame was open before (R31). -/
theorem framesFrom_append {xs : List Event} (h : EndsOutsideFrame xs) (ys : List Event) (L : Lines)
    (cur : Option OpenFrame) :
    framesFrom (xs ++ ys) L cur = framesFrom xs L cur ++ framesFrom ys (applyEvents L xs) none := by
  obtain ⟨us, vs, rfl, hvs⟩ := h
  have htail (M : Lines) :
      framesFrom (vs ++ ys) M none = framesFrom vs M none ++ framesFrom ys (applyEvents M vs) none := by
    have hnone : framesFrom vs M none = [] := by simpa [framesFrom] using framesFrom_none_append hvs [] M
    rw [framesFrom_none_append hvs, hnone, List.nil_append]
  induction us generalizing L cur with
  | nil => cases cur <;> simp [framesFrom, htail]
  | cons u us ih =>
    rw [List.cons_append, List.cons_append, applyEvents_cons]
    cases cur with
    | none =>
      simp only [framesFrom]
      split <;> exact ih _ _
    | some f =>
      simp only [framesFrom]
      split
      · rw [ih, List.cons_append]
      · exact ih _ _

/-- The frames of a concatenation are the frames of its parts, when the first part ends outside a frame (R31). -/
theorem frames_append {xs : List Event} (h : EndsOutsideFrame xs) (ys : List Event) (L : Lines) :
    frames (xs ++ ys) L = frames xs L ++ frames ys (applyEvents L xs) :=
  framesFrom_append h ys L none

theorem frames_initFramingEvents (L : Lines) : frames initFramingEvents L = [] := by
  simp [frames, framesFrom, initFramingEvents]

theorem sampled_initFramingEvents (L : Lines) : sampled initFramingEvents L = [] := rfl

/-- A space is 40 zero bits on the wire (R58). -/
theorem glyphLevels_blankChar : glyphLevels (glyph 0x20) = List.replicate 40 .low := by
  have hglyph : glyph 0x20 = ⟨0, 0, 0, 0, 0⟩ := glyph_blankChar
  rw [hglyph]
  rfl

/-- Settles O45: the framing raises `CE` and has no frame and no sample, and then each framed writer puts its one frame on
the wire, the second from the idle bus state that the first leaves. -/
theorem initOnTheWire : Obligations.InitOnTheWire := by
  intro s L
  have hraised : (applyEvents L initFramingEvents).ce ≠ .low := by simp
  obtain ⟨htextframe, htextsamples⟩ := (framedWritersOnTheWire s _ hraised).2 0x20 0x20 0x20 0x20
  obtain ⟨hregframe, hregsamples⟩ := (framedWritersOnTheWire s _ quiet_idleBus.1).1 (brightnessByte s.cfgBright)
  have htextlines (M : Lines) : applyEvents M (eventsIn s (.writeText 0x20 0x20 0x20 0x20)) = idleBus :=
    applyEvents_writeTextEvents M ..
  have htextend : EndsOutsideFrame (eventsIn s (.writeText 0x20 0x20 0x20 0x20)) :=
    endsOutsideFrame_writeTextEvents ..
  rw [eventsIn_init, List.append_assoc]
  constructor
  · rw [frames_append endsOutsideFrame_initFramingEvents, frames_initFramingEvents, frames_append htextend, htextframe,
      htextlines, hregframe, glyphLevels_blankChar, byteLevels_brightnessByte]
    rfl
  · rw [sampled_append, sampled_initFramingEvents, sampled_append, htextsamples, htextlines, hregsamples]
    intro x hx
    simp only [List.nil_append, List.mem_append, List.mem_map] at hx
    obtain ⟨v, -, rfl⟩ | ⟨v, -, rfl⟩ := hx <;> rfl

end Sys2Proof.Machine
end

section
/-! PROOFS. Family 60_exceptions: nothing stops a dutiful host's run, and a command in progress runs to its end (R75, R79,
R84, R87). -/

namespace Sys2Proof.Machine

/-! ### Progress and preservation -/

/-- A step takes words off the front of the host's list and adds none (R40). -/
theorem step_hostWords_suffix {s t : State} (h : step s = .next t) : t.hostWords <:+ s.hostWords := by
  obtain ⟨i, k, e, -, -, rfl⟩ | ⟨-, -, rfl⟩ | ⟨w, ws, i, -, hport, -, -, rfl⟩ | ⟨w, ws, i, -, hport, -, -, rfl⟩ :=
    step_cases h
  · obtain ⟨-, -, hkept, -⟩ := runProg_control (workBefore (program s.cfgBright i) k) s
    simp [hkept]
  · exact List.suffix_rfl
  · obtain ⟨-, -, hkept, -⟩ := runProg_control (program s.cfgBright i) { s with hostWords := ws }
    rw [hkept, hport]
    exact List.suffix_cons w ws
  · rw [hport]
    exact List.suffix_cons w ws

theorem HostKeepsDuties.step {s t : State} (h : HostKeepsDuties s) (hstep : step s = .next t) : HostKeepsDuties t :=
  fun w hw => h w ((step_hostWords_suffix hstep).mem hw)

/-- Within the bound of `upc` and with defined words only, a step can neither fault nor be refused (R20, R45, R75). -/
theorem exists_step_of_dutiful {s : State} (hbound : SeqBounded s) (hduties : HostKeepsDuties s) :
    ∃ t, step s = .next t := by
  cases hstep : step s with
  | next t => exact ⟨t, rfl⟩
  | fault r => exact absurd hbound ((faultOnlyOutOfBound s).mp ⟨r, hstep⟩)
  | refused r =>
    obtain ⟨-, w, ws, why, hport, hreserved, -⟩ := refusalOnlyOfReservedWord s r hstep
    obtain ⟨i, hdefined⟩ := hduties w (by simp [hport])
    cases hreserved.symm.trans hdefined

/-- Settles O20, by induction on the steps: each answers a next state, in which the invariant and the host's duties hold
again. -/
theorem dutifulRunsNeverStop : Obligations.DutifulRunsNeverStop := by
  intro n
  induction n with
  | zero => exact fun s hinv hduties => ⟨s, rfl, hinv, hduties⟩
  | succ n ih =>
    intro s hinv hduties
    obtain ⟨u, hstep⟩ := exists_step_of_dutiful hinv.1 hduties
    obtain ⟨t, hrun, ht⟩ := ih u (stepKeepsInvariant s u hinv hstep) (hduties.step hstep)
    exact ⟨t, (run_succ_of_step hstep n).trans hrun, ht⟩

/-! ### A command in progress runs to its end -/

/-- From `BUSY(cmd, k)` with the events `e :: es` left, a step issues `e`, leaves `es`, and is the last when that is none
(R21). -/
theorem step_of_busy_left {i : Instr} {k : Nat} {s : State} {e : Event} {es : List Event} (hseq : s.seq = .busy i k)
    (hleft : (eventsIn s i).drop k = e :: es) :
    ∃ u, step s = .next u ∧ u.trace = s.trace ++ [e] ∧ u.lines = applyEvent s.lines e ∧
      u.seq = (if es = [] then .idle else .busy i (k + 1)) ∧ u.hostWords = s.hostWords ∧
      (eventsIn u i).drop (k + 1) = es := by
  have he : (eventsIn s i)[k]? = some e := by rw [← List.head?_drop, hleft, List.head?_cons]
  have hrest : (eventsIn s i).drop (k + 1) = es := by rw [← List.drop_drop, hleft, List.drop_one, List.tail_cons]
  have hlast : k + 1 = (eventsIn s i).length ↔ es = [] := by
    have hk := (List.getElem?_eq_some_iff.mp he).1
    rw [← hrest, List.drop_eq_nil_iff]
    omega
  obtain ⟨u, hstep, htrace, hlines, huseq, hport, -, hconfig⟩ := busyStepIssuesOneEvent s i k e hseq he
  exact ⟨u, hstep, htrace, hlines, by simpa only [hlast] using huseq, hport,
    (eventsIn_congr hconfig.forCommands i).symm ▸ hrest⟩

/-- As many steps as there are events left issue them all and end in `IDLE` (R79). -/
theorem run_of_busy_left {i : Instr} {k : Nat} {s : State} {e : Event} {es : List Event} (hseq : s.seq = .busy i k)
    (hleft : (eventsIn s i).drop k = e :: es) :
    ∃ t, Host.Core.run Sys2Proof.core (es.length + 1) s = .next t ∧ t.seq = .idle ∧ t.trace = s.trace ++ e :: es ∧
      t.lines = applyEvents s.lines (e :: es) ∧ t.hostWords = s.hostWords := by
  induction es generalizing s k e with
  | nil =>
    obtain ⟨t, hstep, htrace, hlines, htseq, hport, -⟩ := step_of_busy_left hseq hleft
    exact ⟨t, (run_one s).trans hstep, htseq, htrace, hlines, hport⟩
  | cons e' es ih =>
    obtain ⟨u, hstep, hutrace, hulines, huseq, huport, huleft⟩ := step_of_busy_left hseq hleft
    obtain ⟨t, hrun, htseq, htrace, hlines, hport⟩ := ih huseq huleft
    refine ⟨t, (run_succ_of_step hstep _).trans hrun, htseq, ?_, ?_, hport.trans huport⟩
    · rw [htrace, hutrace, List.append_assoc, List.singleton_append]
    · rw [hlines, hulines, applyEvents_cons s.lines]

/-- Settles O13: a command in progress has a next event, and the events left are as many as the steps. -/
theorem commandInProgressEnds : Obligations.CommandInProgressEnds := by
  intro s i k hseq hk
  have hleft := List.drop_eq_getElem_cons hk
  have hsteps : (eventsIn s i).length - k = ((eventsIn s i).drop (k + 1)).length + 1 := by
    rw [List.length_drop]; omega
  rw [hleft, hsteps]
  exact run_of_busy_left hseq hleft

end Sys2Proof.Machine
end

section
/-! PROOFS. Family 70_reset_and_hazards: the wait for a command after reset, and `INIT` in a run: where it ends, and what its
end means for the rest of the run (R91 to R93, R103). -/

namespace Sys2Proof.Machine

/-! ### Waiting for a command -/

/-- Settles O10: by induction on the steps, each of which finds no word at the port. -/
theorem nothingHappensUntilACommand : Obligations.NothingHappensUntilACommand := by
  refine ⟨fun n => ?_, fun s hseq hport => step_of_noWord hseq hport⟩
  induction n with
  | zero => rfl
  | succ n ih => exact (run_succ_of_step (step_of_noWord rfl rfl) n).trans ih

/-! ### The step that ends a command -/

theorem commandEnded_of_bigStep {s : State} {w : CmdWord} {ws : List CmdWord} {i : Instr} (hseq : s.seq = .idle)
    (hgrain : s.grain = .bigStep) (hport : s.hostWords = w :: ws) (hdecode : decode w = .instr i) :
    commandEnded s = some i := by
  simp only [commandEnded, takeCommand, hseq, hgrain, hport, hdecode]

/-- The state before a command's last event is one whose step ends the command (R21). -/
theorem commandEnded_afterEvents {i : Instr} {s : State} {k : Nat} (h : k + 1 = (eventsIn s i).length) :
    commandEnded (afterEvents i s k) = some i := by
  have hseq : (afterEvents i s k).seq = .busy i k := by simp [afterEvents, ← h]
  have hevents : eventsIn (afterEvents i s k) i = eventsIn s i := by simp [afterEvents, eventsIn]
  simp only [commandEnded, hseq, hevents, if_pos h]

/-- A command at the port of an idle block is ended by a step of the run, in either step semantics, and that step leaves what
running the command whole leaves (R21). -/
theorem reaches_command_end {s : State} {w : CmdWord} {ws : List CmdWord} {i : Instr} (hseq : s.seq = .idle)
    (hport : s.hostWords = w :: ws) (hdecode : decode w = .instr i) :
    ∃ u, Reaches s u ∧ commandEnded u = some i ∧ step u = exec i { s with hostWords := ws } := by
  obtain hgrain | hgrain : s.grain = .bigStep ∨ s.grain = .smallStep := by cases s.grain <;> simp
  · exact ⟨s, reaches_refl s, commandEnded_of_bigStep hseq hgrain hport hdecode,
      step_of_bigStep hseq hgrain hport hdecode⟩
  · obtain ⟨k, hk⟩ := Nat.exists_eq_add_one.mpr (length_eventsIn_pos { s with hostWords := ws } i)
    have hidle : ({ s with hostWords := ws } : State).seq = .idle := hseq
    refine ⟨afterEvents i { s with hostWords := ws } k, ?_, commandEnded_afterEvents hk.symm, ?_⟩
    · exact reaches_of_step (step_of_smallStep hseq hgrain hport hdecode) ⟨k, run_acceptCommand (by omega)⟩
    · rw [step_afterEvents (by omega), ← hk, afterEvents_all hidle, exec_eq_program]

/-! ### `INIT` establishes the premises -/

/-- Running `INIT` from an idle block leaves a block idle in the idle bus state (R67, R92). -/
theorem exec_init_fromIdle {s : State} (hseq : s.seq = .idle) : ∃ t, exec .init s = .next t ∧ FromIdle t ∧
    t.hostWords = s.hostWords ∧ t.trace = s.trace ++ eventsIn s .init := by
  obtain ⟨t, ht, htrace, hlines, -, htseq, hport, -⟩ := exec_public_spec (i := .init) rfl s
  exact ⟨t, ht, ⟨htseq.trans hseq, hlines⟩, hport, htrace⟩

/-- Settles O50: in either step semantics the run comes to the state that running `INIT` whole leaves, through a step that
ends the `INIT`. -/
theorem initEstablishesPremises : Obligations.InitEstablishesPremises := by
  constructor
  · intro s hseq
    obtain ⟨t, ht, hidle, -, htrace⟩ := exec_init_fromIdle hseq
    exact ⟨t, ht, hidle, htrace⟩
  · intro s w ws hseq hport hdecode
    obtain ⟨t, ht, hidle, htport, htrace⟩ := exec_init_fromIdle (s := { s with hostWords := ws }) hseq
    obtain ⟨u, hsu, hended, hu⟩ := reaches_command_end hseq hport hdecode
    refine ⟨t, ?_, hidle, ⟨hseq, u, t, hsu, hended, hu.trans ht, reaches_refl t⟩, htport, htrace⟩
    cases hgrain : s.grain with
    | bigStep => exact ((run_one s).trans (step_of_bigStep hseq hgrain hport hdecode)).trans ht
    | smallStep => exact (bothStepSemanticsAgree s w ws .init hseq hgrain hport hdecode).trans ht

/-! ### What a completed `INIT` says about the run -/

/-- What holds of every state `t` of a run from the command boundary `s`: the configuration is that of `s`, the trace of `s`
and the host's words continue, and the host has presented the command in progress, whose events so far end the trace. -/
structure InRunFrom (s t : State) : Prop where
  config : SameConfig s t
  trace : s.trace <+: t.trace
  port : t.hostWords <:+ s.hostWords
  progress : ∀ i k, t.seq = .busy i k →
    encode i ∈ s.hostWords ∧ ∃ pre, t.trace = s.trace ++ pre ++ (eventsIn s i).take k

theorem InRunFrom.start {s : State} (h : s.seq = .idle) : InRunFrom s s :=
  ⟨⟨rfl, rfl, rfl⟩, List.prefix_rfl, List.suffix_rfl, fun i k hbusy => by simp [h] at hbusy⟩

/-- A word at the port that decodes is one the host presented in the run, and is the command's own (R41). -/
theorem InRunFrom.encode_mem {s t : State} (h : InRunFrom s t) {w : CmdWord} {ws : List CmdWord} {i : Instr}
    (hport : t.hostWords = w :: ws) (hdecode : decode w = .instr i) : encode i ∈ s.hostWords :=
  encodeDecodeIsIdentity w i hdecode ▸ h.port.mem (by simp [hport])

/-- The next event of a command in progress adds to the command's events so far. -/
theorem InRunFrom.trace_issue {s t : State} (h : InRunFrom s t) {i : Instr} {k : Nat} {e : Event}
    (hseq : t.seq = .busy i k) (he : (eventsIn t i)[k]? = some e) :
    ∃ pre, t.trace ++ [e] = s.trace ++ pre ++ (eventsIn s i).take (k + 1) := by
  obtain ⟨-, pre, htrace⟩ := h.progress i k hseq
  rw [eventsIn_congr h.config.forCommands] at he
  exact ⟨pre, by rw [htrace, List.take_add_one, he, List.append_assoc]; rfl⟩

theorem InRunFrom.progress_step {s t u : State} (h : InRunFrom s t) (hstep : step t = .next u) {i : Instr} {k : Nat}
    (hbusy : u.seq = .busy i k) :
    encode i ∈ s.hostWords ∧ ∃ pre, u.trace = s.trace ++ pre ++ (eventsIn s i).take k := by
  obtain ⟨j, m, e, hseq, he, -⟩ | ⟨hseq, -, rfl⟩ | ⟨w, ws, j, hseq, -, -, -, rfl⟩ | ⟨w, ws, j, -, hport, hdecode, -, rfl⟩ :=
    step_cases hstep
  · obtain ⟨v, hv, htrace, -, hvseq, -⟩ := busyStepIssuesOneEvent t j m e hseq he
    cases hv.symm.trans hstep
    rw [hvseq] at hbusy
    split at hbusy
    · cases hbusy
    · cases hbusy
      exact ⟨(h.progress i m hseq).1, htrace ▸ h.trace_issue hseq he⟩
  · simp [hseq] at hbusy
  · simp [hseq] at hbusy
  · cases hbusy
    obtain ⟨pre, hpre⟩ := h.trace
    exact ⟨h.encode_mem hport hdecode, pre, by simp [hpre]⟩

theorem InRunFrom.step {s t u : State} (h : InRunFrom s t) (hstep : step t = .next u) : InRunFrom s u where
  config := h.config.trans (noStepWritesConfiguration t u hstep)
  trace := h.trace.trans (traceIsAppendOnly t u hstep)
  port := (step_hostWords_suffix hstep).trans h.port
  progress := fun _ _ hbusy => h.progress_step hstep hbusy

/-- A step that ends a command leaves all the command's events at the end of the run's trace (R11, R21). -/
theorem InRunFrom.trace_of_commandEnded {s u v : State} (h : InRunFrom s u) {i : Instr} (hended : commandEnded u = some i)
    (hstep : Machine.step u = .next v) :
    encode i ∈ s.hostWords ∧ ∃ pre, v.trace = s.trace ++ pre ++ eventsIn s i := by
  have hevents : eventsIn u i = eventsIn s i := eventsIn_congr h.config.forCommands i
  obtain ⟨k, hseq, hk⟩ | ⟨w, ws, hseq, hgrain, hport, hdecode⟩ := commandEnded_cases hended
  · obtain ⟨e, he⟩ : ∃ e, (eventsIn u i)[k]? = some e := ⟨_, List.getElem?_eq_getElem (by omega)⟩
    obtain ⟨pre, hpre⟩ := h.trace_issue hseq he
    obtain ⟨t, ht, htrace, -⟩ := busyStepIssuesOneEvent u i k e hseq he
    cases ht.symm.trans hstep
    rw [hk, hevents, List.take_length] at hpre
    exact ⟨(h.progress i k hseq).1, pre, htrace.trans hpre⟩
  · obtain ⟨pre, hpre⟩ := h.trace
    obtain ⟨t, ht, htrace, -⟩ := exec_spec i { u with hostWords := ws }
    cases ht.symm.trans ((step_of_bigStep hseq hgrain hport hdecode).symm.trans hstep)
    have hrun : v.trace = u.trace ++ eventsIn u i := htrace
    exact ⟨h.encode_mem hport hdecode, pre, by rw [hrun, hevents, hpre]⟩

/-- Settles O55: a further step continues the run, and the run goes through the step that ended the `INIT`, after which the
trace only grows. -/
theorem initDoneMeansInitCompleted : Obligations.InitDoneMeansInitCompleted := by
  constructor
  · rintro s t x ⟨hseq, u, v, hsu, hended, hstep, hvt⟩ hx
    exact ⟨hseq, u, v, hsu, hended, hstep, reaches_trans hvt (reaches_of_step hx (reaches_refl x))⟩
  · rintro s t ⟨hseq, u, v, hsu, hended, hstep, hvt⟩
    have hrun : InRunFrom s u := reaches_induction (fun _ _ h hx => h.step hx) (.start hseq) hsu
    obtain ⟨hpresented, pre, hpre⟩ := hrun.trace_of_commandEnded hended hstep
    obtain ⟨post, hpost⟩ : v.trace <+: t.trace :=
      reaches_induction (P := fun x => v.trace <+: x.trace) (fun x y h hx => h.trans (traceIsAppendOnly x y hx))
        List.prefix_rfl hvt
    exact ⟨hpresented, pre, post, by rw [← hpost, hpre]; simp only [List.append_assoc]⟩

end Sys2Proof.Machine
end

section
/-! PROOFS. Family 70_reset_and_hazards: how many events, delays, rising edges and pin writes each operation has, and how long
it lasts at least (R101, R102). -/

namespace Sys2Proof.Machine

/-! ### Sizes add up -/

/-- The size of a list of events met by the levels `L`: its events, its delays, its rising edges of `CLK` and its pin writes
(R101). -/
def size (es : List Event) (L : Lines) : Nat × Nat × Nat × Nat :=
  (es.length, delayCount es, (sampled es L).length, es.countP fun e => !isDelay e)

theorem delayCount_of_size {es : List Event} {L : Lines} {n k rises writes : Nat}
    (h : size es L = (n, k, rises, writes)) : delayCount es = k :=
  congrArg (fun sizes => sizes.2.1) h

theorem size_append (xs ys : List Event) (L : Lines) :
    size (xs ++ ys) L = size xs L + size ys (applyEvents L xs) := by
  simp [size, delayCount, sampled_append]

/-- Parts of one size, whatever levels they meet. -/
theorem size_flatMap {α : Type} {f : α → List Event} {n : Nat × Nat × Nat × Nat} (h : ∀ x L, size (f x) L = n)
    (xs : List α) (L : Lines) : size (xs.flatMap f) L = xs.length • n := by
  induction xs generalizing L with
  | nil => rw [List.length_nil, zero_nsmul]; rfl
  | cons x xs ih => rw [List.flatMap_cons, size_append, h, ih, List.length_cons, succ_nsmul']

/-! ### The size of each part -/

section
variable (d : Nat) (L : Lines)

/-- A round of `WRITE` is a write of `DIN` and a pulse (R52). -/
theorem size_bit (b : Bool) : size (dinEvent b :: pulseEvents d) L = (6, 2, 1, 4) := by
  cases b <;> rfl

/-- `WRITE` is eight rounds and a `Clear(DIN)` (R52). -/
theorem size_writeEvents (b : Byte) : size (writeEvents d b) L = (49, 16, 8, 33) := by
  rw [writeEvents, size_append, size_flatMap fun i M => size_bit d M (b.getLsbD i)]
  rfl

@[simp] theorem length_glyph_bytes (g : Glyph) : g.bytes.length = 5 := rfl

theorem size_writeArrayEvents (g : Glyph) : size (writeArrayEvents d g) L = (245, 80, 40, 165) := by
  rw [writeArrayEvents, size_flatMap fun b M => size_writeEvents d M b]
  simp

/-- A frame adds nine events to its bytes, four of them delays (R64). -/
theorem size_framed {first : Event} (hfirst : first = .set .rs ∨ first = .clear .rs) (bs : List Byte) (last : Line) :
    size (framed d first bs last) L = (4, 2, 0, 2) + bs.length • (49, 16, 8, 33) + (5, 2, 0, 3) := by
  have hopening : size [first, .delay d, .clear .ce, .delay d] L = (4, 2, 0, 2) := by
    obtain rfl | rfl := hfirst <;> rfl
  have hclosing (M : Lines) : size [.set .ce, .delay d, .clear .clk, .delay d, .clear last] M = (5, 2, 0, 3) := rfl
  rw [framed, size_append, size_append, hopening, hclosing, size_flatMap fun b M => size_writeEvents d M b]

theorem size_writeReg0Events (v : Byte) : size (writeReg0Events d v) L = (58, 20, 8, 38) := by
  rw [writeReg0Events_eq_framed, size_framed d L (.inl rfl)]
  rfl

theorem size_writeTextEvents (c0 c1 c2 c3 : Byte) : size (writeTextEvents d c0 c1 c2 c3) L = (989, 324, 160, 665) := by
  rw [writeTextEvents_eq_framed, size_framed d L (.inr rfl)]
  simp

theorem size_initEvents (bright : Byte) : size (initEvents d bright) L = (1050, 344, 168, 706) := by
  rw [initEvents, size_append, size_append, size_writeTextEvents, size_writeReg0Events]
  rfl

end

/-- Settles O51. -/
theorem operationSizes : Obligations.OperationSizes := by
  intro s L i
  cases i with
  | generateClock | initFraming => rfl
  | write b => exact size_writeEvents s.cfgDelay L b
  | writeArray | writeChar => exact size_writeArrayEvents s.cfgDelay L _
  | writeReg0 | updateBrightness => exact size_writeReg0Events s.cfgDelay L _
  | writeText | updateText => exact size_writeTextEvents s.cfgDelay L _ _ _ _
  | init => exact size_initEvents s.cfgDelay L s.cfgBright

/-! ### Least durations -/

/-- When every delay has the one count `d`, the least time is that of `d` for each delay (R82). -/
theorem leastNs_of_delays {d : Nat} {es : List Event} (h : ∀ n, .delay n ∈ es → n = d) :
    leastNs es = delayCount es * d * 100 := by
  induction es with
  | nil => simp [leastNs, delayCount]
  | cons e es ih =>
    have hrest : leastNs es = delayCount es * d * 100 := ih fun n hn => h n (List.mem_cons_of_mem e hn)
    cases e with
    | set l | clear l => simpa [leastNs, delayCount, isDelay] using hrest
    | delay n =>
      obtain rfl : n = d := h n List.mem_cons_self
      have hcount : delayCount (.delay n :: es) = delayCount es + 1 := List.countP_cons_of_pos rfl
      rw [leastNs, hrest, hcount, Config.delayUnitNs]
      ring

/-- Settles O52: every delay is the configured one, and the numbers of delays are those of the operations' sizes. -/
theorem leastDurations : Obligations.LeastDurations := by
  intro s
  have hleast (i : Instr) : leastNs (eventsIn s i) = delayCount (eventsIn s i) * s.cfgDelay * 100 :=
    leastNs_of_delays fun n => everyDelayIsTheConfiguredOne s i n
  have hinit : delayCount (eventsIn s .init) = 344 := delayCount_of_size (size_initEvents _ idleBus _)
  have htext (c0 c1 c2 c3 : Byte) : delayCount (eventsIn s (.updateText c0 c1 c2 c3)) = 324 :=
    delayCount_of_size (size_writeTextEvents _ idleBus c0 c1 c2 c3)
  have hbrightness (v : Byte) : delayCount (eventsIn s (.updateBrightness v)) = 20 :=
    delayCount_of_size (size_writeReg0Events _ idleBus (brightnessByte v))
  refine ⟨hleast, ?_, fun c0 c1 c2 c3 => ?_, fun v => ?_⟩
  · rw [hleast, hinit]
  · rw [hleast, htext]
  · rw [hleast, hbrightness]

end Sys2Proof.Machine
end

section
/-! PROOFS. Family 70_reset_and_hazards: the spacing of events, in delays (R98, R99). Every operation is a sequence of a few
short segments, so that a spacing holds of every operation once a number of delays since the last `a` event is found that
each segment needs at its start and restores at its end. -/

namespace Sys2Proof.Machine

/-! ### The delays since the last event of a kind -/

/-- The count of delays since the last `a` event, after one more event. -/
def nextGap (a : Event → Bool) (cur : Option Nat) (e : Event) : Option Nat :=
  if a e then some 0 else if isDelay e then cur.map (· + 1) else cur

/-- At least `m` delays lie since the last `a` event, if there was one. -/
def gapReaches (m : Nat) (cur : Option Nat) : Bool := cur.all fun k => decide (m ≤ k)

theorem gapsFrom_cons (n : Nat) (a b : Event → Bool) (cur : Option Nat) (e : Event) (es : List Event) :
    gapsFrom n a b cur (e :: es) = ((!b e || gapReaches n cur) && gapsFrom n a b (nextGap a cur e) es) := rfl

/-- Whatever number of delays the count `x` reaches, `y` reaches too. -/
def NoShorter (x y : Option Nat) : Prop := ∀ m, gapReaches m x = true → gapReaches m y = true

theorem noShorter_of_gapReaches {c : Nat} {cur : Option Nat} (h : gapReaches c cur = true) : NoShorter (some c) cur := by
  intro m hm
  cases cur with
  | none => rfl
  | some k =>
    simp only [gapReaches, Option.all_some, decide_eq_true_eq] at h hm ⊢
    exact hm.trans h

theorem gapReaches_map_succ (m : Nat) (cur : Option Nat) :
    gapReaches m (cur.map (· + 1)) = gapReaches (m - 1) cur := by
  cases cur <;> simp [gapReaches]

theorem NoShorter.nextGap {x y : Option Nat} (h : NoShorter x y) (a : Event → Bool) (e : Event) :
    NoShorter (nextGap a x e) (nextGap a y e) := by
  unfold Machine.nextGap
  split
  · exact fun _ hm => hm
  · split
    · intro m
      rw [gapReaches_map_succ, gapReaches_map_succ]
      exact h (m - 1)
    · exact h

/-! ### Segments that need and restore a count -/

/-- The events keep the spacing of `gapsFrom`, and end at least `c` delays after the last `a` event. -/
def pacedFrom (n c : Nat) (a b : Event → Bool) (cur : Option Nat) (es : List Event) : Bool :=
  match es with
  | [] => gapReaches c cur
  | e :: rest => (!b e || gapReaches n cur) && pacedFrom n c a b (nextGap a cur e) rest

/-- Begun `c` delays after the last `a` event, the events keep the spacing and end at least `c` delays after the last one. -/
def Paced (n c : Nat) (a b : Event → Bool) (es : List Event) : Prop := pacedFrom n c a b (some c) es = true

section
variable {n c : Nat} {a b : Event → Bool}

/-- More delays before the events do no harm. -/
theorem pacedFrom_of_noShorter {x y : Option Nat} (h : NoShorter x y) {es : List Event}
    (hes : pacedFrom n c a b x es = true) : pacedFrom n c a b y es = true := by
  induction es generalizing x y with
  | nil => exact h c hes
  | cons e es ih =>
    simp only [pacedFrom, Bool.and_eq_true, Bool.or_eq_true] at hes ⊢
    exact ⟨hes.1.imp_right (h n), ih (h.nextGap a e) hes.2⟩

theorem gapsFrom_of_pacedFrom {cur : Option Nat} {es : List Event} (h : pacedFrom n c a b cur es = true) :
    gapsFrom n a b cur es = true := by
  induction es generalizing cur with
  | nil => rfl
  | cons e es ih =>
    rw [pacedFrom, Bool.and_eq_true] at h
    rw [gapsFrom_cons, h.1, ih h.2, Bool.and_true]

theorem pacedFrom_append {cur : Option Nat} {xs ys : List Event} (hxs : pacedFrom n c a b cur xs = true)
    (hys : Paced n c a b ys) : pacedFrom n c a b cur (xs ++ ys) = true := by
  induction xs generalizing cur with
  | nil => exact pacedFrom_of_noShorter (noShorter_of_gapReaches hxs) hys
  | cons x xs ih =>
    rw [pacedFrom, Bool.and_eq_true] at hxs
    rw [List.cons_append, pacedFrom, hxs.1, ih hxs.2, Bool.and_true]

/-- Before the first `a` event every spacing holds, so that paced events may open a trace. -/
theorem Paced.gapsAtLeast {es : List Event} (h : Paced n c a b es) : gapsAtLeast n a b es = true :=
  gapsFrom_of_pacedFrom (pacedFrom_of_noShorter (noShorter_of_gapReaches rfl) h)

theorem Paced.append {xs ys : List Event} (hxs : Paced n c a b xs) (hys : Paced n c a b ys) : Paced n c a b (xs ++ ys) :=
  pacedFrom_append hxs hys

theorem Paced.flatMap {α : Type} {f : α → List Event} (h : ∀ x, Paced n c a b (f x)) (xs : List α) :
    Paced n c a b (xs.flatMap f) := by
  induction xs with
  | nil => simp [Paced, pacedFrom, gapReaches]
  | cons x xs ih => exact (h x).append ih

end

/-! ### The segments of the operations -/

/-- The segments of a framed writer: the rounds of `WRITE` and its end (R52), and what opens and closes a frame (R60,
R62). -/
def frameSegments (d : Nat) : List (List Event) :=
  [dinEvent false :: pulseEvents d, dinEvent true :: pulseEvents d, [.clear .din],
    [.set .rs, .delay d, .clear .ce, .delay d], [.clear .rs, .delay d, .clear .ce, .delay d],
    [.set .ce, .delay d, .clear .clk, .delay d, .clear .rs], [.set .ce, .delay d, .clear .clk, .delay d, .clear .din]]

/-- The segments of all operations: a pulse alone (R50) and the framing of `INIT` (R66) beside those of a framed writer. -/
def segments (d : Nat) : List (List Event) := pulseEvents d :: initFramingEvents :: frameSegments d

section
variable {n c d : Nat} {a b : Event → Bool} (h : ∀ es ∈ frameSegments d, Paced n c a b es)
include h

theorem paced_writeEvents (v : Byte) : Paced n c a b (writeEvents d v) := by
  have hbit (i : Nat) : Paced n c a b (dinEvent (v.getLsbD i) :: pulseEvents d) := by
    cases v.getLsbD i
    · exact h _ (by simp [frameSegments])
    · exact h _ (by simp [frameSegments])
  exact (Paced.flatMap hbit _).append (h _ (by simp [frameSegments]))

theorem paced_writeReg0Events (v : Byte) : Paced n c a b (writeReg0Events d v) :=
  ((h _ (by simp [frameSegments])).append (paced_writeEvents h v)).append (h _ (by simp [frameSegments]))

theorem paced_writeTextEvents (c0 c1 c2 c3 : Byte) : Paced n c a b (writeTextEvents d c0 c1 c2 c3) := by
  rw [writeTextEvents_eq_framed]
  exact ((h _ (by simp [frameSegments])).append (Paced.flatMap (paced_writeEvents h) _)).append
    (h _ (by simp [frameSegments]))

end

/-- A spacing that every segment keeps is kept by every command. -/
theorem paced_events {n c d : Nat} {a b : Event → Bool} (h : ∀ es ∈ segments d, Paced n c a b es) (bright : Byte)
    (i : Instr) : Paced n c a b (events d bright i) := by
  obtain ⟨hpulse, hframing, hframe⟩ : Paced n c a b (pulseEvents d) ∧ Paced n c a b initFramingEvents ∧
      ∀ es ∈ frameSegments d, Paced n c a b es := by simpa [segments] using h
  cases i with
  | generateClock => exact hpulse
  | write v => exact paced_writeEvents hframe v
  | writeArray | writeChar => exact Paced.flatMap (paced_writeEvents hframe) _
  | writeReg0 | updateBrightness => exact paced_writeReg0Events hframe _
  | writeText | updateText => exact paced_writeTextEvents hframe _ _ _ _
  | initFraming => exact hframing
  | init => exact (hframing.append (paced_writeTextEvents hframe _ _ _ _)).append (paced_writeReg0Events hframe _)

/-! ### The bounds -/

/-- A spacing with the count `c` that every segment keeps, checked segment by segment, holds of every command. -/
theorem gapsAtLeast_eventsIn {n : Nat} {a b : Event → Bool} (c : Nat) (s : State) (i : Instr)
    (h : (segments s.cfgDelay).all (pacedFrom n c a b (some c)) = true) : gapsAtLeast n a b (eventsIn s i) = true :=
  (paced_events (List.all_eq_true.mp h) s.cfgBright i).gapsAtLeast

/-- Settles O53. The count is 1 where a segment leaves a delay after its last `a` event, as a pulse does after its rising edge
and the opening of a frame after `CE` falls, and 0 where each `b` event has its delays in its own segment. In `WRITE_REG0` it
is 2, the delays with which a frame closes. -/
theorem spacingLowerBounds : Obligations.SpacingLowerBounds := by
  intro s
  refine ⟨fun i => ⟨gapsAtLeast_eventsIn 0 s i rfl, gapsAtLeast_eventsIn 1 s i rfl, gapsAtLeast_eventsIn 0 s i rfl,
    gapsAtLeast_eventsIn 1 s i rfl, gapsAtLeast_eventsIn 1 s i rfl, gapsAtLeast_eventsIn 0 s i rfl,
    gapsAtLeast_eventsIn 1 s i rfl, gapsAtLeast_eventsIn 1 s i rfl⟩, fun v => ?_⟩
  have hsegments : (frameSegments s.cfgDelay).all
      (pacedFrom 2 2 (fun e => e == .set .ce) (fun e => e == .clear .rs) (some 2)) = true := rfl
  exact (paced_writeReg0Events (List.all_eq_true.mp hsegments) v).gapsAtLeast

/-- Settles O54: a frame closes two delays after `CE` rises, and the next opens with one more before `CE` falls. -/
theorem backToBackFramesAreSpaced : Obligations.BackToBackFramesAreSpaced := by
  intro s i j hi hj
  have hsegments : (frameSegments s.cfgDelay).all
      (pacedFrom 3 2 (fun e => e == .set .ce) (fun e => e == .clear .ce) (some 2)) = true := rfl
  have hreg := paced_writeReg0Events (List.all_eq_true.mp hsegments)
  have htext := paced_writeTextEvents (List.all_eq_true.mp hsegments)
  have hframed {k : Instr} (hk : (∃ v, k = .writeReg0 v) ∨ (∃ c0 c1 c2 c3, k = .writeText c0 c1 c2 c3) ∨
      (∃ v, k = .updateBrightness v) ∨ ∃ c0 c1 c2 c3, k = .updateText c0 c1 c2 c3) :
      Paced 3 2 (fun e => e == .set .ce) (fun e => e == .clear .ce) (eventsIn s k) := by
    obtain ⟨v, rfl⟩ | ⟨c0, c1, c2, c3, rfl⟩ | ⟨v, rfl⟩ | ⟨c0, c1, c2, c3, rfl⟩ := hk
    · exact hreg v
    · exact htext c0 c1 c2 c3
    · exact hreg (brightnessByte v)
    · exact htext c0 c1 c2 c3
  exact ((hframed hi).append (hframed hj)).gapsAtLeast

end Sys2Proof.Machine
end
